-- ==== Sys2Proof/Word.lean ====
section
/-! DEFINITION. The words that cross the ports of the block.

A `Num` is held as its encoding, the unsigned value of `enc`, a natural number below 2^NW
(00_scope.md R12, 30_encoding.md R85); a host command word is the unsigned value of its `NW + 4` bits
(R83). `NW` is a parameter (00_scope.md R9), so the width is kept by an invariant and not by the type
(log 22). Where a type says `PidRegs Nat` or an operand is a `Nat`, it is such an encoding. -/

namespace Sys2Proof

/-- A `Num` of profile `F32`: the 32 bits of a binary32 value, sign in bit 31, exponent in bits
30:23, fraction in bits 22:0 (00_scope.md R13). Every bit pattern is a value (30_encoding.md R85). -/
abbrev Num32 := BitVec 32

/-- One element of a channel: an opaque word of `W` bits, held as its unsigned value. The block never
interprets it (10_state.md R31), and `W` differs from instance to instance (42_fifo.md R159). -/
abbrev Elem := Nat

end Sys2Proof
end

