-- ==== Sys2Proof/Config.lean ====
section
/-! DEFINITION. The parameters of 00_scope.md R9 as data, the two configurations of
95_test_vectors.md, and what is left free: the arithmetic of a profile the spec does not define, and
the elements of `MEM` that nothing has pushed. -/

namespace Sys2Proof

/-- What a numeric profile supplies (00_scope.md R12). -/
structure Arithmetic (α : Type) where
  zero : α
  fadd : α → α → α
  fsub : α → α → α
  fmul : α → α → α
  fdiv : α → α → α
  fabs : α → α
  flt : α → α → Bool
deriving Inhabited

/-- The parameter `NUM` of 00_scope.md R9: the numeric profile of an instance (D1, U11). Profile `Q`
has no encoding (R14), so no instance with ports can have it; it is `profileQ` (log 3). -/
inductive Profile where
  /-- Binary32, the default (R13). -/
  | f32
  /-- Any other profile whose values are encoded in `nw` bits. -/
  | other (nw : Nat)
deriving DecidableEq, Repr

/-- `NW`, the bits of an encoded `Num` (00_scope.md R9). -/
def Profile.nw : Profile → Nat
  | .f32 => 32
  | .other nw => nw

/-- The `Num` parameters of `PIDREG` (00_scope.md R9). The first six are the read-only control
constants of 10_state.md R30; the last six are the reset values of 10_state.md R41. -/
structure PidParams (α : Type) where
  period : α
  inMin : α
  inMax : α
  intMin : α
  intMax : α
  eps : α
  sp0 : α
  kp0 : α
  ki0 : α
  kd0 : α
  act0 : α
  pv0 : α
deriving DecidableEq, Repr

/-- The twelve values. -/
def PidParams.toList (p : PidParams α) : List α :=
  [p.period, p.inMin, p.inMax, p.intMin, p.intMax, p.eps, p.sp0, p.kp0, p.ki0, p.kd0, p.act0, p.pv0]

/-- The parameters of one `BFIFO` instance: `CAP` elements of `W` bits (00_scope.md R9). -/
structure ChanParams where
  cap : Nat
  w : Nat
deriving DecidableEq, Repr

namespace ChanParams

/-- `CAP >= 1` and `W >= 1` (00_scope.md R10). -/
def ok (p : ChanParams) : Bool := decide (1 ≤ p.cap) && decide (1 ≤ p.w)

end ChanParams

namespace Config

/-- CFG-A of 95_test_vectors.md: the regulator parameters `State.reset` uses.
DESIGN CHOICE (log 1), unsafe only for claims about `State.reset` itself: R9 leaves every value OPEN. -/
def cfgA : PidParams Nat where
  period := 0x3F000000
  inMin := 0x00000000
  inMax := 0x42C80000
  intMin := 0xC1200000
  intMax := 0x41200000
  eps := 0x3A800000
  sp0 := 0x41200000
  kp0 := 0x3F800000
  ki0 := 0x00000000
  kd0 := 0x00000000
  act0 := 0x00000000
  pv0 := 0x00000000

/-- CFG-F of 95_test_vectors.md: `CAP = 4`, `W = 8`. DESIGN CHOICE (log 2). -/
def cfgF : ChanParams := { cap := 4, w := 8 }

/-- Free value: what an element of `MEM` holds that nothing has pushed since reset number `epoch`, in
instance `ch` at index `i` (10_state.md R42, 93_implementation_defined.md U3, log 9). Safe: no value
of it can be proved. -/
opaque staleElem (epoch ch i : Nat) : Elem

/-- Free: the arithmetic of a profile other than `F32` on its encodings of `nw` bits (00_scope.md R12,
U11, log 3). Safe: nothing can be proved of its values, so a claim either holds under every profile
or names `F32`. -/
opaque otherArith (nw : Nat) : Arithmetic (BitVec nw)

end Config

end Sys2Proof
end

