-- ==== Sys2Proof/Machine/State.lean ====
section
/-! DEFINITION. The whole state of the block (10_state.md R20), the ports' inputs, and the reasons a
step can stop. -/

namespace Sys2Proof.Machine

/-! ### PIDREG -/

/-- The eight registers of `PIDREG` (10_state.md R22), each one `Num`. -/
structure PidRegs (α : Type) where
  /-- Proportional gain (R23). -/
  kp : α
  /-- Integral gain (R23). -/
  ki : α
  /-- Derivative gain (R23). -/
  kd : α
  /-- Setpoint (R24). -/
  sp : α
  /-- The integrator's accumulator (R25). -/
  integral : α
  /-- The error of the last tick that was not a no-op (R26). -/
  lastError : α
  /-- The actuation slot, written by the tick and by the host (R28). -/
  act : α
  /-- The process-variable slot, read by no operation (R29). -/
  pv : α
deriving DecidableEq, Repr

/-! ### BFIFO -/

/-- A backing array: the elements written so far, as (index, element) pairs in rising order of index
(10_state.md R31, 20_memory.md R60). An index that is not listed has no stored element. -/
abbrev Memory := List (Nat × Elem)

namespace Memory

/-- The canonical form: indices strictly rising. No entry can equal what an unlisted index holds,
since that is no element at all (log 9). -/
def wf : Memory → Bool
  | [] => true
  | [_] => true
  | a :: b :: rest => decide (a.1 < b.1) && wf (b :: rest)

end Memory

/-- The state of one `BFIFO` instance (10_state.md R20, R31 to R34). -/
structure Fifo where
  mem : Memory
  /-- Write index (R32). -/
  wr : Nat
  /-- Read index (R33). -/
  rd : Nat
  /-- Count of filled slots (R34). -/
  count : Nat
deriving DecidableEq, Repr

/-- The result signals of one instance in the cycle just run (30_encoding.md R82, R88, R89). They are
not held: every cycle drives them anew (70_reset_and_hazards.md R227, log 11). -/
structure ChanOut where
  /-- `push_ok` (R89). -/
  pushOk : Bool
  /-- `pop_valid` and `pop_data` together: `none` is `pop_valid = 0`, when `pop_data` is
  unspecified (R88, U4). -/
  popped : Option Elem
deriving DecidableEq, Repr

/-- One `BFIFO` instance with its constants (00_scope.md R9) and its result signals. -/
structure Channel where
  params : ChanParams
  fifo : Fifo
  out : ChanOut
deriving DecidableEq, Repr

/-! ### The ports' inputs -/

/-- The inputs of one `BFIFO` instance in one clock cycle (30_encoding.md R82). -/
structure ChanIn where
  /-- The push word `{push_valid, push_data}` (R87). -/
  push : Nat
  /-- `pop_req` (R88). -/
  popReq : Bool
deriving DecidableEq, Repr

/-- The inputs of the whole block in one clock cycle (30_encoding.md R80, R82): at most one operation
a port (R92). Instances beyond the end of `chans` are presented nothing. -/
structure PortInputs where
  rst : Bool
  tick : Bool
  cmdValid : Bool
  cmd : Nat
  chans : List ChanIn
deriving DecidableEq, Repr

/-- A cycle in which no port presents anything. -/
def PortInputs.quiet : PortInputs :=
  { rst := false, tick := false, cmdValid := false, cmd := 0, chans := [] }

/-! ### The state -/

/-- All the spec gives the machine, the constants of the instance included, and three fields of the
model's own: `memEpoch`, `resetSeen` and `inputs`. -/
structure State where
  /-- The numeric profile of `PIDREG` (00_scope.md R9), which nothing changes (log 3). -/
  num : Profile
  /-- The parameters of `PIDREG`, which nothing changes (00_scope.md R11, 10_state.md R30, R43, log 1). -/
  params : PidParams Nat
  /-- The registers of `PIDREG` (10_state.md R22). -/
  regs : PidRegs Nat
  /-- The `BFIFO` instances, `N_CH` of them (00_scope.md R4, log 2). -/
  chans : List Channel
  /-- The model's own: how many resets have left `MEM` unspecified again (log 9). -/
  memEpoch : Nat
  /-- The model's own: `rst` has been asserted since power-up (70_reset_and_hazards.md R213, log 12). -/
  resetSeen : Bool
  /-- The model's own: the inputs of the coming clock cycles, the next one first (log 5). -/
  inputs : List PortInputs
deriving DecidableEq, Repr

/-- Why a step has no successor state although the hardware would go on. -/
inductive Fault where
  /-- Raised by `PID.TICK` when a value of the tick is NaN (40_pid_tick.md R122, U2). Safe: the spec
  itself gives such a tick no successor. -/
  | nanTick
deriving DecidableEq, Repr

/-- Why the model gives a run no meaning. -/
inductive Refusal where
  /-- Raised by `exec` for an operation without a meaning; no arm does so. Safe. -/
  | notModelled (mnemonic : String)
  /-- Raised by `step` when the parameters break 00_scope.md R10 (U7, log 13). Safe. -/
  | badConfiguration
  /-- Raised by `step` for an operation before the first reset (70_reset_and_hazards.md R213, U1,
  log 12). Safe. -/
  | beforeFirstReset
  /-- Raised by `exec` and `step` for a port of a `BFIFO` instance that does not exist (log 18). Safe. -/
  | noSuchChannel (ch : Nat)
deriving DecidableEq, Repr

/-- The outcomes of a step of this machine. -/
abbrev Result := Host.Outcome State Fault Refusal

/-- A `BFIFO` instance just after reset (10_state.md R42): empty, both indices 0, nothing listed in
`MEM`, and no result signalled (60_exceptions.md R174). -/
def Channel.afterReset (p : ChanParams) : Channel :=
  { params := p,
    fifo := { mem := [], wr := 0, rd := 0, count := 0 },
    out := { pushOk := false, popped := none } }

/-- The registers of `PIDREG` just after reset (10_state.md R41), for a profile with the given `ZERO`. -/
def PidRegs.afterReset (zero : α) (p : PidParams α) : PidRegs α :=
  { kp := p.kp0, ki := p.ki0, kd := p.kd0, sp := p.sp0,
    integral := zero, lastError := zero, act := p.act0, pv := p.pv0 }

/-- The machine right after reset (70_reset_and_hazards.md R210), of the default profile (log 3), with the
parameters of CFG-A (log 1) and three instances of CFG-F (log 2), and no input on the way. -/
def State.reset : State :=
  { num := .f32,
    params := Config.cfgA,
    regs := PidRegs.afterReset 0 Config.cfgA,
    chans := List.replicate 3 (Channel.afterReset Config.cfgF),
    memEpoch := 0,
    resetSeen := true,
    inputs := [] }

end Sys2Proof.Machine
end

