-- ==== Sys2Proof/Machine/Flags.lean ====
section
/-! DEFINITION. The condition flags of a `BFIFO` instance and the status outputs (10_state.md R38,
R40; 30_encoding.md R81). All are functions of the state and none is stored. -/

namespace Sys2Proof.Machine

/-- `FULL = (COUNT == CAP)` (10_state.md R38). -/
def Fifo.full (p : ChanParams) (f : Fifo) : Bool := f.count == p.cap

/-- `EMPTY = (COUNT == 0)` (10_state.md R38). -/
def Fifo.empty (f : Fifo) : Bool := f.count == 0

/-- `ceil(log2(n))`, and 0 for `n <= 1`. -/
def ceilLog2 (n : Nat) : Nat := if n ≤ 1 then 0 else Nat.log2 (n - 1) + 1

/-- `IW = max(1, ceil(log2(CAP)))`, the width of `WR` and `RD` (00_scope.md R9). -/
def indexWidth (cap : Nat) : Nat := max 1 (ceilLog2 cap)

/-- `CNTW = ceil(log2(CAP+1))`, the width of `COUNT` (00_scope.md R9). -/
def countWidth (cap : Nat) : Nat := ceilLog2 (cap + 1)

/-- The status outputs of `PIDREG` (30_encoding.md R81): `enc` of each register, which is the register
itself, since a `Num` is held as its encoding, on `NW` wires. -/
structure PidStatus (nw : Nat) where
  kpQ : BitVec nw
  kiQ : BitVec nw
  kdQ : BitVec nw
  spQ : BitVec nw
  integralQ : BitVec nw
  lastErrorQ : BitVec nw
  actQ : BitVec nw
  pvQ : BitVec nw
deriving DecidableEq, Repr

/-- Read without a side effect (10_state.md R40). -/
def State.pidStatus (s : State) : PidStatus s.num.nw :=
  { kpQ := BitVec.ofNat _ s.regs.kp,
    kiQ := BitVec.ofNat _ s.regs.ki,
    kdQ := BitVec.ofNat _ s.regs.kd,
    spQ := BitVec.ofNat _ s.regs.sp,
    integralQ := BitVec.ofNat _ s.regs.integral,
    lastErrorQ := BitVec.ofNat _ s.regs.lastError,
    actQ := BitVec.ofNat _ s.regs.act,
    pvQ := BitVec.ofNat _ s.regs.pv }

/-- The status outputs of an instance of capacity `cap` (30_encoding.md R81). -/
structure ChanStatus (cap : Nat) where
  wrQ : BitVec (indexWidth cap)
  rdQ : BitVec (indexWidth cap)
  countQ : BitVec (countWidth cap)
  full : Bool
  empty : Bool
deriving DecidableEq, Repr

/-- Read without a side effect (10_state.md R40). -/
def Channel.status (c : Channel) : ChanStatus c.params.cap :=
  { wrQ := BitVec.ofNat _ c.fifo.wr,
    rdQ := BitVec.ofNat _ c.fifo.rd,
    countQ := BitVec.ofNat _ c.fifo.count,
    full := c.fifo.full c.params,
    empty := c.fifo.empty }

end Sys2Proof.Machine
end

