-- ==== Sys2Proof/Machine/Numeric.lean ====
section
/-! DEFINITION. The arithmetic of `Num`: profile `F32` in full, profile `Q`, and `clamp`
(00_scope.md R12 to R15). -/

namespace Sys2Proof.Machine

/-! ### Numeric profiles -/

/-- What a numeric profile supplies (00_scope.md R12), with the two tests R10 and R122 make of a
`Num`. The tick is written over this record, so it exists under every profile (R14, log 3). -/
structure NumProfile (α : Type) extends Arithmetic α where
  isNaN : α → Bool
  isFinite : α → Bool

/-- `clamp(v, lo, hi)` (00_scope.md R15): the lower bound is tested first, and a value equal to a
bound is returned unchanged. -/
def clamp (N : NumProfile α) (v lo hi : α) : α :=
  if N.flt v lo then lo
  else if N.flt hi v then hi
  else v

/-! ### binary32: fields -/

/-- The sign bit, bit 31. -/
def signOf (x : Num32) : Bool := x.getLsbD 31

/-- Exponent and fraction together, bits 30:0. As a number it grows with the magnitude. -/
def magBits (x : Num32) : Nat := x.toNat % 2 ^ 31

/-- The `magBits` of an infinity: exponent all ones, fraction zero. -/
def infBits : Nat := 0x7F800000

def isNaN (x : Num32) : Bool := decide (infBits < magBits x)

def isInf (x : Num32) : Bool := decide (magBits x = infBits)

def isFinite (x : Num32) : Bool := decide (magBits x < infBits)

/-- The binary32 value with the given sign and `magBits`. -/
def packNum (neg : Bool) (mag : Nat) : Num32 := BitVec.ofNat 32 ((if neg then 2 ^ 31 else 0) + mag)

/-- The NaN an invalid operation gives. Which NaN is the model's choice; no register can ever receive
it from a tick, by 40_pid_tick.md R122 (log 4). -/
def quietNaN : Num32 := 0x7FC00000#32

/-! ### binary32: values

Every finite binary32 value is an integer multiple of 2^-149, the smallest subnormal, so it is held
here as that integer. -/

/-- The magnitude a finite `magBits` stands for, in units of 2^-149: a subnormal is its fraction, a
normal number is its fraction with the hidden one, shifted by its exponent. -/
def magUnits (mag : Nat) : Nat :=
  if mag / 2 ^ 23 = 0 then mag
  else (2 ^ 23 + mag % 2 ^ 23) <<< (mag / 2 ^ 23 - 1)

/-- The value of a finite `Num` in units of 2^-149. -/
def units (x : Num32) : Int :=
  if signOf x then -(magUnits (magBits x) : Int) else (magUnits (magBits x) : Int)

/-! ### binary32: rounding -/

/-- `n / d` rounded to the nearest integer, ties to even. -/
def divNearestEven (n d : Nat) : Nat :=
  let q := n / d
  let r := n % d
  if 2 * r < d then q
  else if d < 2 * r then q + 1
  else q + q % 2

/-- How far the magnitude `n / d` (in units of 2^-149) must be scaled down so that 24 bits are left
before its point; 0 for a magnitude below 2^24 units, where the spacing of binary32 is one unit. -/
def roundShift (n d : Nat) : Nat := Nat.log2 (n / d) - 23

/-- The `magBits` of the magnitude `n / d`, `d > 0`, in units of 2^-149, rounded once, to nearest with
ties to even, with subnormals kept; a magnitude that rounds past the largest finite value is an
infinity (00_scope.md R13). A significand that rounds up to 2^24 carries into the exponent. -/
def roundMag (n d : Nat) : Nat :=
  let sh := roundShift n d
  min (sh * 2 ^ 23 + divNearestEven n (d <<< sh)) infBits

/-! ### binary32: the operations (00_scope.md R13) -/

/-- Subtraction is addition of this. -/
def fneg (x : Num32) : Num32 := x ^^^ 0x80000000#32

/-- `fabs` clears the sign bit. -/
def fabs (x : Num32) : Num32 := x &&& 0x7FFFFFFF#32

/-- The quiet less-than: false when either operand is NaN, and `-0` is not less than `+0`. -/
def flt (a b : Num32) : Bool :=
  let key (x : Num32) : Int := if signOf x then -(magBits x : Int) else (magBits x : Int)
  !isNaN a && !isNaN b && decide (key a < key b)

def fadd (a b : Num32) : Num32 :=
  if isNaN a || isNaN b then quietNaN
  else if isInf a then (if isInf b && signOf a != signOf b then quietNaN else a)
  else if isInf b then b
  else
    let sum := units a + units b
    if sum = 0 then packNum (signOf a && signOf b) 0
    else packNum (decide (sum < 0)) (roundMag sum.natAbs 1)

def fsub (a b : Num32) : Num32 := fadd a (fneg b)

def fmul (a b : Num32) : Num32 :=
  let neg := signOf a != signOf b
  if isNaN a || isNaN b then quietNaN
  else if isInf a || isInf b then
    (if magBits a = 0 || magBits b = 0 then quietNaN else packNum neg infBits)
  else packNum neg (roundMag (magUnits (magBits a) * magUnits (magBits b)) (2 ^ 149))

def fdiv (a b : Num32) : Num32 :=
  let neg := signOf a != signOf b
  if isNaN a || isNaN b then quietNaN
  else if isInf a then (if isInf b then quietNaN else packNum neg infBits)
  else if isInf b then packNum neg 0
  else if magBits b = 0 then (if magBits a = 0 then quietNaN else packNum neg infBits)
  else packNum neg (roundMag (magUnits (magBits a) * 2 ^ 149) (magUnits (magBits b)))

/-- Profile `F32`, the default (00_scope.md R13, D1). -/
def f32 : NumProfile Num32 :=
  { zero := 0#32, fadd := fadd, fsub := fsub, fmul := fmul, fdiv := fdiv, fabs := fabs, flt := flt,
    isNaN := isNaN, isFinite := isFinite }

/-- Profile `Q`, exact rationals, for reasoning only: it has no encoding, so no port can carry its
values (00_scope.md R14, log 3). -/
def profileQ : NumProfile Rat :=
  { zero := 0, fadd := fun a b => a + b, fsub := fun a b => a - b, fmul := fun a b => a * b,
    fdiv := fun a b => a / b, fabs := fun a => if a < 0 then -a else a,
    flt := fun a b => decide (a < b), isNaN := fun _ => false, isFinite := fun _ => true }

/-! ### The profile of an instance, on encodings -/

/-- `dec` of profile `F32` (00_scope.md R12, R13); its inverse `enc` is `BitVec.toNat`. -/
def dec32 (x : Nat) : Num32 := BitVec.ofNat 32 x

/-- An arithmetic on values of `nw` bits, as one on the encodings that the registers hold. -/
def encodedArith (A : Arithmetic (BitVec nw)) : Arithmetic Nat :=
  { zero := A.zero.toNat,
    fadd := fun a b => (A.fadd (BitVec.ofNat nw a) (BitVec.ofNat nw b)).toNat,
    fsub := fun a b => (A.fsub (BitVec.ofNat nw a) (BitVec.ofNat nw b)).toNat,
    fmul := fun a b => (A.fmul (BitVec.ofNat nw a) (BitVec.ofNat nw b)).toNat,
    fdiv := fun a b => (A.fdiv (BitVec.ofNat nw a) (BitVec.ofNat nw b)).toNat,
    fabs := fun a => (A.fabs (BitVec.ofNat nw a)).toNat,
    flt := fun a b => A.flt (BitVec.ofNat nw a) (BitVec.ofNat nw b) }

/-- The arithmetic of an instance's profile (00_scope.md R9, R12). A profile the spec does not define
is left free. The finiteness that R10 asks and the NaN fault of 40_pid_tick.md R122 are stated for
`F32` alone, so no other profile has a value that is NaN or not finite (log 3). -/
def profileArith : Profile → NumProfile Nat
  | .f32 =>
    { encodedArith f32.toArithmetic with
      isNaN := fun x => isNaN (dec32 x), isFinite := fun x => isFinite (dec32 x) }
  | .other nw =>
    { encodedArith (Config.otherArith nw) with
      isNaN := fun _ => false, isFinite := fun _ => true }

/-- `a <= b` as 00_scope.md R10 and 30_encoding.md R102 use it: false on NaN. -/
def numLe (N : NumProfile α) (a b : α) : Bool := !N.isNaN a && !N.isNaN b && !N.flt b a

end Sys2Proof.Machine
end

