-- ==== Sys2Proof/Syntax.lean ====
section
/-! DEFINITION. The eleven operations of the block (00_scope.md R5, spec/opcode_table.json). -/

namespace Sys2Proof

/-- One constructor per row of spec/opcode_table.json. `ch` is the number of the `BFIFO` instance
whose port presents the operation; it is told by the port and is no part of an encoding (D25, log 8). A `Num` operand `v` is its encoding
(30_encoding.md R85, log 22). -/
inductive Instr where
  /-- `PID.NOP` (41_pid_host.md R130). -/
  | nop
  /-- `PID.RESET` (R131). -/
  | reset
  /-- `PID.SETSP v` (R132). -/
  | setSp (v : Nat)
  /-- `PID.SETKP v` (R133). -/
  | setKp (v : Nat)
  /-- `PID.SETKI v` (R134). -/
  | setKi (v : Nat)
  /-- `PID.SETKD v` (R135). -/
  | setKd (v : Nat)
  /-- `PID.WRACT v` (R137). -/
  | wrAct (v : Nat)
  /-- `PID.WRPV v` (R138). -/
  | wrPv (v : Nat)
  /-- `PID.TICK` (40_pid_tick.md R110). -/
  | tick
  /-- `FIFO.PUSH item` on instance `ch` (42_fifo.md R150). -/
  | push (ch : Nat) (item : Elem)
  /-- `FIFO.POP` on instance `ch` (R152). -/
  | pop (ch : Nat)
deriving DecidableEq, Repr

namespace Instr

/-- The operation acts on `PIDREG` (00_scope.md R5); the others act on one `BFIFO` instance. -/
def onPid : Instr → Bool
  | .nop | .reset | .setSp _ | .setKp _ | .setKi _ | .setKd _ | .wrAct _ | .wrPv _ | .tick => true
  | .push _ _ | .pop _ => false

/-- The operation is a host command: it arrives on the port `cmd` (30_encoding.md R84). -/
def isHostCommand : Instr → Bool
  | .nop | .reset | .setSp _ | .setKp _ | .setKi _ | .setKd _ | .wrAct _ | .wrPv _ => true
  | .tick | .push _ _ | .pop _ => false

end Instr

end Sys2Proof
end

