-- ==== Sys2Proof/WellFormed.lean ====
section
/-! DEFINITION. Which operations the ports of a given instance can present. -/

namespace Sys2Proof

/-- The widths of the ports: `NW` of `PIDREG`, and the element width `W` of each `BFIFO` instance, in
order (00_scope.md R9). -/
structure PortWidths where
  nw : Nat
  chans : List Nat
deriving DecidableEq, Repr

/-- A `Num` operand has `NW` bits (30_encoding.md R85). A push names an instance that exists and an
element of at most `W` bits (R87); a pop names an instance that exists. -/
def Instr.wellFormed (widths : PortWidths) : Instr → Bool
  | .nop | .reset | .tick => true
  | .setSp v | .setKp v | .setKi v | .setKd v | .wrAct v | .wrPv v => decide (v < 2 ^ widths.nw)
  | .push ch item =>
    match widths.chans[ch]? with
    | some w => decide (item < 2 ^ w)
    | none => false
  | .pop ch => decide (ch < widths.chans.length)

end Sys2Proof
end

