-- ==== Sys2Proof/Machine/Ops.lean ====
section
/-! DEFINITION. The named operations over memory, registers, channels and the whole state that the
meanings share. The block takes no exception and returns from none (60_exceptions.md R170, R175,
R176), so there is no operation for either. -/

namespace Sys2Proof.Machine

/-! ### Outcomes -/

/-- Run `f` on the next state, and keep a fault or a refusal. -/
def andThen (o : Result) (f : State → Result) : Result :=
  match o with
  | .next s => f s
  | .fault r => .fault r
  | .refused r => .refused r

/-! ### The backing array (20_memory.md R60, R61, R64) -/

namespace Memory

/-- `MemRead(i, 1)`: the element listed at index `i`, if there is one (00_scope.md R17). -/
def read : Memory → Nat → Option Elem
  | [], _ => none
  | (j, x) :: rest, i => if j = i then some x else read rest i

/-- `MemWrite(i, 1, x)` (00_scope.md R17), keeping the indices in rising order. -/
def write : Memory → Nat → Elem → Memory
  | [], i, x => [(i, x)]
  | (j, y) :: rest, i, x =>
    if i < j then (i, x) :: (j, y) :: rest
    else if i = j then (i, x) :: rest
    else (j, y) :: write rest i x

end Memory

/-! ### One channel -/

/-- The index after `i` in a channel of capacity `cap` (10_state.md R32, R33). -/
def nextIndex (cap i : Nat) : Nat := (i + 1) % cap

/-- The low `w` bits of a word: the wires of `push_data` (30_encoding.md R87) or of `data` (R83). -/
def lowBits (w x : Nat) : Nat := x % 2 ^ w

/-- Store `item` at `WR` and advance `WR`. `COUNT` is left to the caller. -/
def Fifo.enqueue (p : ChanParams) (item : Elem) (f : Fifo) : Fifo :=
  { f with mem := f.mem.write f.wr (lowBits p.w item), wr := nextIndex p.cap f.wr }

/-- Advance `RD`. The element is not erased (42_fifo.md R152, D16). `COUNT` is left to the caller. -/
def Fifo.dequeue (p : ChanParams) (f : Fifo) : Fifo :=
  { f with rd := nextIndex p.cap f.rd }

/-- The element at `RD`. Where nothing has been stored there since the last reset it is the free value
`stale`, cut to the width of an element (10_state.md R42, U3, log 9); a pop cannot meet that case in
a state that a run reaches (10_state.md R37). -/
def Fifo.head (p : ChanParams) (stale : Nat → Elem) (f : Fifo) : Elem :=
  match f.mem.read f.rd with
  | some x => x
  | none => lowBits p.w (stale f.rd)

/-- `FIFO.PUSH` on one instance (42_fifo.md R150): the new contents and `push_ok`. A full channel
drops the newest element and changes nothing (R151). -/
def Channel.push (item : Elem) (c : Channel) : Channel :=
  if c.fifo.full c.params then
    { c with out := { c.out with pushOk := false } }
  else
    { c with
      fifo := { c.fifo.enqueue c.params item with count := c.fifo.count + 1 },
      out := { c.out with pushOk := true } }

/-- `FIFO.POP` on one instance (42_fifo.md R152): the new contents and the popped element. An empty
channel answers nothing and changes nothing (R153). -/
def Channel.pop (stale : Nat → Elem) (c : Channel) : Channel :=
  if c.fifo.empty then
    { c with out := { c.out with popped := none } }
  else
    { c with
      fifo := { c.fifo.dequeue c.params with count := c.fifo.count - 1 },
      out := { c.out with popped := some (c.fifo.head c.params stale) } }

/-- A push and a pop presented in the same cycle (42_fifo.md R156): both are judged on `COUNT` as it
stands at the start of the cycle, the pop reads the array as it stands there, and `COUNT` is updated
once. -/
def Channel.pushPop (stale : Nat → Elem) (item : Elem) (c : Channel) : Channel :=
  let doPush := !c.fifo.full c.params
  let doPop := !c.fifo.empty
  let f1 := if doPop then c.fifo.dequeue c.params else c.fifo
  let f2 := if doPush then f1.enqueue c.params item else f1
  { c with
    fifo := { f2 with
      count := c.fifo.count + (if doPush then 1 else 0) - (if doPop then 1 else 0) },
    out := { pushOk := doPush,
             popped := if doPop then some (c.fifo.head c.params stale) else none } }

/-- No result is signalled (30_encoding.md R88, R89). -/
def Channel.quiet (c : Channel) : Channel :=
  { c with out := { pushOk := false, popped := none } }

/-! ### The whole state -/

/-- Apply an operation to instance `ch`; an instance that does not exist has no port (log 18). -/
def onChannel (ch : Nat) (s : State) (f : Channel → Channel) : Result :=
  match s.chans[ch]? with
  | some c => .next { s with chans := s.chans.set ch (f c) }
  | none => .refused (.noSuchChannel ch)

/-- The widths of the ports. -/
def State.widths (s : State) : PortWidths :=
  { nw := s.num.nw, chans := s.chans.map (fun c => c.params.w) }

/-- The arithmetic of the instance. -/
abbrev State.arith (s : State) : NumProfile Nat := profileArith s.num

/-- A host command's operand as the register takes it: the `NW` wires of `data` (30_encoding.md R85,
log 17). -/
def State.operand (s : State) (v : Nat) : Nat := lowBits s.num.nw v

/-- The free value for the stale elements of instance `ch` (log 9). -/
def State.stale (s : State) (ch : Nat) : Nat → Elem := Config.staleElem s.memEpoch ch

/-- The start of a clock cycle: result signals of the cycle before are not held
(70_reset_and_hazards.md R227). -/
def State.beginCycle (s : State) : State := { s with chans := s.chans.map Channel.quiet }

/-- The reset of 70_reset_and_hazards.md R210: every register as 10_state.md R41, every instance as
R42, the constants untouched (R43). It makes `MEM` unspecified again (log 9), and it does not touch
the inputs still on the way, which are not the block's. -/
def State.hardReset (s : State) : State :=
  { s with
    regs := PidRegs.afterReset s.arith.zero s.params,
    chans := s.chans.map (fun c => Channel.afterReset c.params),
    memEpoch := s.memEpoch + 1,
    resetSeen := true }

/-! ### The parameters' constraints -/

/-- 00_scope.md R10 for the parameters of `PIDREG`, under any profile. `INT_MIN <= INT_MAX` (D3) is tested
by itself: it follows from `INT_MIN <= 0 <= INT_MAX` under `F32`, but a profile need not have a
transitive less-than (R12, log 13). -/
def paramsOk (N : NumProfile α) (p : PidParams α) : Bool :=
  N.flt N.zero p.period
    && numLe N p.inMin p.inMax
    && numLe N p.intMin p.intMax
    && numLe N p.intMin N.zero && numLe N N.zero p.intMax
    && numLe N N.zero p.eps
    && p.toList.all N.isFinite

/-- 00_scope.md R10 for the whole configuration, with the types of R9: `N_CH` and `NW` are positive, and
every `Num` parameter is an encoding of `NW` bits (log 13). -/
def State.configOk (s : State) : Bool :=
  paramsOk s.arith s.params && !s.chans.isEmpty && s.chans.all (fun c => c.params.ok)
    && decide (1 ≤ s.num.nw) && s.params.toList.all (fun v => decide (v < 2 ^ s.num.nw))

end Sys2Proof.Machine
end

