-- ==== Sys2Proof/Machine/Channels.lean ====
section
/-! DEFINITION. The operations of the `BFIFO` instances (42_fifo.md). -/

namespace Sys2Proof.Machine

/-- `FIFO.PUSH item` on instance `ch` (42_fifo.md R150, R151). -/
def execPush (ch : Nat) (item : Elem) (s : State) : Result :=
  onChannel ch s (Channel.push item)

/-- `FIFO.POP` on instance `ch` (42_fifo.md R152, R153). -/
def execPop (ch : Nat) (s : State) : Result :=
  onChannel ch s (Channel.pop (s.stale ch))

/-- A push and a pop presented to instance `ch` in the same cycle (42_fifo.md R156). -/
def execPushPop (ch : Nat) (item : Elem) (s : State) : Result :=
  onChannel ch s (Channel.pushPop (s.stale ch) item)

end Sys2Proof.Machine
end

