-- ==== Sys2Proof/Machine/HostCommands.lean ====
section
/-! DEFINITION. The host commands of `PIDREG` (41_pid_host.md). None is refused, delayed or answered
(R140), none checks a range (10_state.md R23, R24), and each setter writes one register (R136). -/

namespace Sys2Proof.Machine

/-- `PID.NOP` (41_pid_host.md R130). -/
def execNop (s : State) : Result := .next s

/-- `PID.RESET` (R131): `ACT`, `PV`, the gains and the setpoint stay. -/
def execReset (s : State) : Result :=
  .next { s with regs := { s.regs with integral := s.arith.zero, lastError := s.arith.zero } }

/-- `PID.SETSP v` (R132). -/
def execSetSp (v : Nat) (s : State) : Result :=
  .next { s with regs := { s.regs with sp := s.operand v } }

/-- `PID.SETKP v` (R133). -/
def execSetKp (v : Nat) (s : State) : Result :=
  .next { s with regs := { s.regs with kp := s.operand v } }

/-- `PID.SETKI v` (R134): `INTEGRAL` is not rescaled. -/
def execSetKi (v : Nat) (s : State) : Result :=
  .next { s with regs := { s.regs with ki := s.operand v } }

/-- `PID.SETKD v` (R135). -/
def execSetKd (v : Nat) (s : State) : Result :=
  .next { s with regs := { s.regs with kd := s.operand v } }

/-- `PID.WRACT v` (R137): no clamp on the write. -/
def execWrAct (v : Nat) (s : State) : Result :=
  .next { s with regs := { s.regs with act := s.operand v } }

/-- `PID.WRPV v` (R138). -/
def execWrPv (v : Nat) (s : State) : Result :=
  .next { s with regs := { s.regs with pv := s.operand v } }

/-- A command word with a reserved code does what `PID.NOP` does (R139, 30_encoding.md R90). It is no
instruction of the table, so it has no arm in `exec`; the cycle calls it (log 16). -/
def execReserved (_code : BitVec 4) (_data : Nat) (s : State) : Result := .next s

end Sys2Proof.Machine
end

