-- ==== Sys2Proof/Machine/Tick.lean ====
section
/-! DEFINITION. `PID.TICK`, the whole datapath of `PIDREG` (40_pid_tick.md). -/

namespace Sys2Proof.Machine

/-- The near-zero gate, on the raw register and strict (40_pid_tick.md R111, C2). -/
def tickGated (N : NumProfile α) (p : PidParams α) (r : PidRegs α) : Bool :=
  N.flt (N.fabs r.act) p.eps

/-- The local values of one tick (40_pid_tick.md R110). -/
structure TickLocals (α : Type) where
  a : α
  e : α
  i1 : α
  d : α
  out : α
deriving DecidableEq, Repr

/-- Step 1, the input clamp (R112). -/
def tickInput (N : NumProfile α) (p : PidParams α) (r : PidRegs α) : α :=
  clamp N r.act p.inMin p.inMax

/-- Step 2, the error of the baseline topology (R113, C3). -/
def tickError (N : NumProfile α) (r : PidRegs α) (a : α) : α := N.fsub r.sp a

/-- Step 3, the saturating integrator: product, then sum, then clamp (R114, D2). -/
def tickIntegral (N : NumProfile α) (p : PidParams α) (r : PidRegs α) (e : α) : α :=
  clamp N (N.fadd r.integral (N.fmul e p.period)) p.intMin p.intMax

/-- Step 4, the differentiator, with `LAST_ERROR` from before this tick (R115). -/
def tickDerivative (N : NumProfile α) (p : PidParams α) (r : PidRegs α) (e : α) : α :=
  N.fdiv (N.fsub e r.lastError) p.period

/-- Step 5, the gain multiplier and output clamp: three products summed left to right (R116, D2). -/
def tickOutput (N : NumProfile α) (p : PidParams α) (r : PidRegs α) (e i1 d : α) : α :=
  clamp N (N.fadd (N.fadd (N.fmul r.kp e) (N.fmul r.ki i1)) (N.fmul r.kd d)) p.inMin p.inMax

/-- All local values of a tick (R110). -/
def tickLocals (N : NumProfile α) (p : PidParams α) (r : PidRegs α) : TickLocals α :=
  let a := tickInput N p r
  let e := tickError N r a
  let i1 := tickIntegral N p r e
  let d := tickDerivative N p r e
  { a := a, e := e, i1 := i1, d := d, out := tickOutput N p r e i1 d }

/-- A NaN among the local values (R122). -/
def TickLocals.hasNaN (N : NumProfile α) (l : TickLocals α) : Bool :=
  N.isNaN l.a || N.isNaN l.e || N.isNaN l.i1 || N.isNaN l.d || N.isNaN l.out

/-- One tick on the registers: `none` is the fault of R122. The three writes take effect together
(R117), and a gated tick writes nothing (R111). -/
def pidTick (N : NumProfile α) (p : PidParams α) (r : PidRegs α) : Option (PidRegs α) :=
  if tickGated N p r then some r
  else
    let l := tickLocals N p r
    if l.hasNaN N then none
    else some { r with integral := l.i1, lastError := l.e, act := l.out }

/-- `PID.TICK` (40_pid_tick.md R110), under the profile of the instance. -/
def execTick (s : State) : Result :=
  match pidTick s.arith s.params s.regs with
  | some r => .next { s with regs := r }
  | none => .fault .nanTick

end Sys2Proof.Machine
end

