-- ==== Sys2Proof/Machine/Dispatch.lean ====
section
/-! DEFINITION. One arm per operation. -/

namespace Sys2Proof.Machine

def exec (i : Instr) (s : State) : Host.Outcome State Fault Refusal :=
  match i with
  | .nop => Sys2Proof.Machine.execNop s
  | .reset => Sys2Proof.Machine.execReset s
  | .setSp v => Sys2Proof.Machine.execSetSp v s
  | .setKp v => Sys2Proof.Machine.execSetKp v s
  | .setKi v => Sys2Proof.Machine.execSetKi v s
  | .setKd v => Sys2Proof.Machine.execSetKd v s
  | .wrAct v => Sys2Proof.Machine.execWrAct v s
  | .wrPv v => Sys2Proof.Machine.execWrPv v s
  | .tick => Sys2Proof.Machine.execTick s
  | .push ch item => Sys2Proof.Machine.execPush ch item s
  | .pop ch => Sys2Proof.Machine.execPop ch s

end Sys2Proof.Machine
end

