-- ==== Sys2Proof/Decode.lean ====
section
/-! DEFINITION. From port values to operations (30_encoding.md R83 to R91), and back. -/

namespace Sys2Proof

/-- What one port presents in one cycle. -/
inductive Decoded where
  /-- An operation. -/
  | op (i : Instr)
  /-- A command word with a reserved code, kept apart from `PID.NOP` although it acts as one
  (30_encoding.md R90, 41_pid_host.md R139, log 16). -/
  | reserved (code : BitVec 4) (data : Nat)
  /-- The port presents nothing (R83, R86, R87, R88). -/
  | idle
deriving DecidableEq, Repr

/-- The operation, if there is one. -/
def Decoded.toInstr : Decoded → Option Instr
  | .op i => some i
  | .reserved _ _ => none
  | .idle => none

/-! ### Format H -/

/-- Field `op`, bits `NW+3:NW` of a command word (30_encoding.md R83). The port has `NW + 4` wires, so
bits above `NW+3` are not there to be read (log 22). -/
def cmdOp (nw : Nat) (c : Nat) : BitVec 4 := BitVec.ofNat 4 (c / 2 ^ nw)

/-- Field `data`, bits `NW-1:0` of a command word (30_encoding.md R83). -/
def cmdData (nw : Nat) (c : Nat) : Nat := c % 2 ^ nw

/-- The command word with the given fields (30_encoding.md R83). -/
def cmdWord (nw : Nat) (op : BitVec 4) (data : Nat) : Nat := op.toNat * 2 ^ nw + data

/-- The operation codes of 30_encoding.md R84. `data` is ignored by `PID.NOP` and `PID.RESET` (D27). -/
def decodeCmd (nw : Nat) (c : Nat) : Decoded :=
  match (cmdOp nw c).toNat with
  | 0x0 => .op .nop
  | 0x1 => .op .reset
  | 0x2 => .op (.setSp (cmdData nw c))
  | 0x3 => .op (.setKp (cmdData nw c))
  | 0x4 => .op (.setKi (cmdData nw c))
  | 0x5 => .op (.setKd (cmdData nw c))
  | 0x6 => .op (.wrAct (cmdData nw c))
  | 0x7 => .op (.wrPv (cmdData nw c))
  | _ => .reserved (cmdOp nw c) (cmdData nw c)

/-! ### Formats T, P and Q -/

/-- Format T: the port `tick` (30_encoding.md R86). -/
def decodeTick (bit : Bool) : Decoded := if bit then .op .tick else .idle

/-- Format P: the push word `{push_valid, push_data}` of instance `ch`, whose elements have `w` bits.
`push_valid` is bit `w`, `push_data` is bits `w-1:0` (30_encoding.md R87). The port has `w + 1` wires,
so bits above `w` are not there to be read (log 10). -/
def decodePush (w ch word : Nat) : Decoded :=
  if word.testBit w then .op (.push ch (word % 2 ^ w)) else .idle

/-- Format Q: the port `pop_req` of instance `ch` (30_encoding.md R88). -/
def decodePop (ch : Nat) (bit : Bool) : Decoded := if bit then .op (.pop ch) else .idle

/-! ### All ports -/

/-- A value on one port of the block (30_encoding.md R80, R82). -/
inductive PortWord where
  | cmd (c : Nat)
  | tick (bit : Bool)
  | push (ch word : Nat)
  | popReq (ch : Nat) (bit : Bool)
deriving DecidableEq, Repr

/-- The port tells the format (30_encoding.md R91). A push port of an instance that does not exist
presents nothing. -/
def decode (widths : PortWidths) : PortWord → Decoded
  | .cmd c => decodeCmd widths.nw c
  | .tick bit => decodeTick bit
  | .push ch word =>
    match widths.chans[ch]? with
    | some w => decodePush w ch word
    | none => .idle
  | .popReq ch bit => decodePop ch bit

/-! ### The opcode table's own numbering -/

/-- The instruction read from a row's bits, numbered as spec/opcode_table.json numbers them for
`NW = 32`: format H for words of 33 bits and more, format P with the table's `W = 8` for 9 to 32 bits, and the one-bit
formats below that. Rows T and Q are the SAME one-bit word, told apart only by the port (R91); such a
word is read as `PID.TICK` (log 7, DESIGN CHOICE). The push row is read as instance 0. -/
def decodeTableWord (nbits w : Nat) : Option Instr :=
  if nbits ≤ 8 then (decodeTick (w.testBit 0)).toInstr
  else if nbits ≤ 32 then (decodePush 8 0 w).toInstr
  else (decodeCmd 32 w).toInstr

/-! ### The encoder -/

/-- The push word of an element (30_encoding.md R87). -/
def pushWord (w : Nat) (item : Elem) : Nat := 2 ^ w + item

/-- The word that presents an operation, and its port (30_encoding.md R84 to R88). An ignored `data`
field is sent as zero (R85, D27). The width of an instance that does not exist is taken as 0; no
well-formed operation names one. -/
def encode (widths : PortWidths) : Instr → PortWord
  | .nop => .cmd (cmdWord widths.nw 0x0#4 0)
  | .reset => .cmd (cmdWord widths.nw 0x1#4 0)
  | .setSp v => .cmd (cmdWord widths.nw 0x2#4 v)
  | .setKp v => .cmd (cmdWord widths.nw 0x3#4 v)
  | .setKi v => .cmd (cmdWord widths.nw 0x4#4 v)
  | .setKd v => .cmd (cmdWord widths.nw 0x5#4 v)
  | .wrAct v => .cmd (cmdWord widths.nw 0x6#4 v)
  | .wrPv v => .cmd (cmdWord widths.nw 0x7#4 v)
  | .tick => .tick true
  | .push ch item => .push ch (pushWord (widths.chans[ch]?.getD 0) item)
  | .pop ch => .popReq ch true

end Sys2Proof
end

