-- ==== Sys2Proof/Machine/Operands.lean ====
section
/-! DEFINITION. The operand forms of the block: what each port presents in a cycle (30_encoding.md
R83 to R89), and the cycle that presents one operation. -/

namespace Sys2Proof.Machine

/-- What instance `ch` is presented: its push word and its `pop_req` (30_encoding.md R87, R88). -/
structure ChanOps where
  push : Decoded
  pop : Decoded
deriving DecidableEq, Repr

/-- Read both ports of an instance whose elements have `w` bits. -/
def chanOps (w ch : Nat) (ci : ChanIn) : ChanOps :=
  { push := decodePush w ch ci.push, pop := decodePop ch ci.popReq }

/-- The command port of a cycle: `cmd` counts only with `cmd_valid = 1` (30_encoding.md R83). -/
def cmdPort (nw : Nat) (c : PortInputs) : Decoded :=
  if c.cmdValid then decodeCmd nw c.cmd else .idle

/-- Some port of `PIDREG` or of an instance presents something, for ports of the given widths. -/
def PortInputs.presents (widths : PortWidths) (c : PortInputs) : Bool :=
  c.tick || c.cmdValid
    || (c.chans.zip widths.chans).any (fun x => x.1.push.testBit x.2 || x.1.popReq)

/-- The inputs of an instance that is presented nothing. -/
def ChanIn.quiet : ChanIn := { push := 0, popReq := false }

/-- The cycle in which one port carries the given word and every other port presents nothing. -/
def PortInputs.ofWord : PortWord → PortInputs
  | .cmd c => { PortInputs.quiet with cmdValid := true, cmd := c }
  | .tick bit => { PortInputs.quiet with tick := bit }
  | .push ch word =>
    { PortInputs.quiet with
      chans := List.replicate ch ChanIn.quiet ++ [{ push := word, popReq := false }] }
  | .popReq ch bit =>
    { PortInputs.quiet with
      chans := List.replicate ch ChanIn.quiet ++ [{ push := 0, popReq := bit }] }

/-- The cycle that presents a row of spec/opcode_table.json, its bits numbered as the table numbers
them, as `decodeTableWord` reads it (log 7): a push row, which the table gives for `W = 8`, is laid
out for the width of instance 0, and a command row, which it gives for `NW = 32`, for the `NW` of the
instance. -/
def PortInputs.ofTableWord (widths : PortWidths) (nbits w : Nat) : PortInputs :=
  if nbits ≤ 8 then PortInputs.ofWord (.tick (w.testBit 0))
  else if nbits ≤ 32 then
    PortInputs.ofWord
      (.push 0 (if w.testBit 8 then pushWord (widths.chans[0]?.getD 8) (w % 2 ^ 8) else 0))
  else PortInputs.ofWord (.cmd (cmdWord widths.nw (cmdOp 32 w) (lowBits widths.nw (cmdData 32 w))))

end Sys2Proof.Machine
end

