-- ==== Sys2Proof/Machine/Cycle.lean ====
section
/-! DEFINITION. One clock cycle of the block (00_scope.md R6, 60_exceptions.md R174). -/

namespace Sys2Proof.Machine

/-- Run what a port presents. A port that presents nothing changes nothing; a reserved command code
acts as `PID.NOP` (30_encoding.md R90). -/
def runDecoded (d : Decoded) (s : State) : Result :=
  match d with
  | .op i => exec i s
  | .reserved code data => execReserved code data s
  | .idle => .next s

/-- `PIDREG` in one cycle: the tick, then the host command (41_pid_host.md R141). -/
def pidCycle (c : PortInputs) (s : State) : Result :=
  andThen (runDecoded (decodeTick c.tick) s) (runDecoded (cmdPort s.num.nw c))

/-- Run what the two ports of one instance present. A push together with a pop is R156's combined
update of 42_fifo.md. -/
def runChanOps (ops : ChanOps) (s : State) : Result :=
  match ops.push, ops.pop with
  | .op (.push ch item), .op (.pop _) => execPushPop ch item s
  | .op i, _ => exec i s
  | _, d => runDecoded d s

/-- One instance in one cycle (42_fifo.md R156). -/
def chanCycle (ch : Nat) (ci : ChanIn) (s : State) : Result :=
  match s.chans[ch]? with
  | some c => runChanOps (chanOps c.params.w ch ci) s
  | none => .refused (.noSuchChannel ch)

/-- The instances from number `ch` on, one after another. They share nothing, so the order does not
matter (20_memory.md R69, log 14). -/
def chanCycles (ch : Nat) (cis : List ChanIn) (s : State) : Result :=
  match cis with
  | [] => .next s
  | ci :: rest => andThen (chanCycle ch ci s) (chanCycles (ch + 1) rest)

/-- All operations of one cycle without reset (60_exceptions.md R174 (2) and (3)). -/
def operationsCycle (c : PortInputs) (s : State) : Result :=
  andThen (pidCycle c s.beginCycle) (chanCycles 0 c.chans)

/-- One clock cycle (60_exceptions.md R174). `rst` alone counts when it is 1, and the operations of
that cycle are discarded. Before the first reset no operation has a meaning (70_reset_and_hazards.md
R213, log 12). A push or pop port of an instance that does not exist is no input of the block
(log 18). -/
def runCycle (c : PortInputs) (s : State) : Result :=
  if s.chans.length < c.chans.length then .refused (.noSuchChannel s.chans.length)
  else if c.rst then .next s.hardReset
  else if !s.resetSeen && c.presents s.widths then .refused .beforeFirstReset
  else operationsCycle c s

/-- Take the next cycle's inputs; with none on the way the cycle is quiet (log 5). -/
def fetchInputs (s : State) : PortInputs := s.inputs.head?.getD PortInputs.quiet

/-- The state once those inputs are taken. -/
def State.consumeInputs (s : State) : State := { s with inputs := s.inputs.tail }

/-- A configuration that breaks 00_scope.md R10 has no meaning (log 13); any other runs its next
clock cycle. -/
def clockCycle (s : State) : Result :=
  if s.configOk then runCycle (fetchInputs s) s.consumeInputs else .refused .badConfiguration

/-- Replace the next cycle's inputs (log 6). -/
def State.present (s : State) (c : PortInputs) : State := { s with inputs := c :: s.inputs.tail }

end Sys2Proof.Machine
end

