-- ==== Sys2Proof/Machine/Step.lean ====
section
/-! DEFINITION. One step of the machine is one clock cycle. -/

namespace Sys2Proof.Machine

/-- One clock cycle (00_scope.md R5, R6; log 5). -/
def step (s : State) : Host.Outcome State Fault Refusal := clockCycle s

/-- `s` with a row of spec/opcode_table.json presented to it in the coming cycle, and nothing else in
that cycle (log 6, log 7). -/
def State.withFetchWord (s : State) (nbits w : Nat) : State :=
  s.present (PortInputs.ofTableWord s.widths nbits w)

end Sys2Proof.Machine
end

