-- ==== Sys2Proof/Machine/CommandLayer.lean ====
section
/-! DEFINITION. The command layer's text forms and the other pseudo-operations (30_encoding.md R101 to
R106): what operation each turns into. The layer is outside the block (00_scope.md R8); its parser is
not specified and is not modelled (91_not_in_source.md N12, log 19). -/

namespace Sys2Proof.Machine

/-- The recognised forms, parsed (30_encoding.md R101). -/
inductive TextCommand where
  /-- `R`. -/
  | resetCmd
  /-- `V:<float>`. -/
  | target (v : Nat)
  /-- `K:<letter>:<float>`. -/
  | gain (letter : Char) (v : Nat)
  /-- A bare `<float>`. -/
  | bare (v : Nat)
deriving DecidableEq, Repr

/-- The allowed range of `V:<float>`: parameters of the command layer, not of the block
(00_scope.md R9). -/
structure TargetRange where
  vLo : Nat
  vHi : Nat
deriving DecidableEq, Repr

/-- `V_LO <= v <= V_HI`, both ends included (30_encoding.md R102, D21). A NaN lies in no range.
DESIGN CHOICE (log 19): 00_scope.md R10 asks every `Num` parameter to be finite under `F32` and does not
say whether that reaches `V_LO` and `V_HI`, which are no parameters of the hardware (R9); they are not
tested, so a bound may be an infinity. -/
def TargetRange.allows (N : NumProfile Nat) (r : TargetRange) (v : Nat) : Bool :=
  numLe N r.vLo v && numLe N v r.vHi

/-- `V:<float>` (30_encoding.md R102): out-of-range values are silently ignored. -/
def assembleTarget (N : NumProfile Nat) (r : TargetRange) (v : Nat) : Option Instr :=
  if r.allows N v then some (.setSp v) else none

/-- `K:<letter>:<float>` (30_encoding.md R103): any other letter assembles to nothing. -/
def assembleGain (letter : Char) (v : Nat) : Option Instr :=
  if letter = 'P' then some (.setKp v)
  else if letter = 'I' then some (.setKi v)
  else if letter = 'D' then some (.setKd v)
  else none

/-- What a text command turns into; `none` is no operation at all (30_encoding.md R102 to R105). -/
def assembleText (N : NumProfile Nat) (r : TargetRange) : TextCommand → Option Instr
  | .resetCmd => some .reset
  | .target v => assembleTarget N r v
  | .gain letter v => assembleGain letter v
  | .bare v => assembleTarget N r v

/-- `readLatest()` of a sampler is a pop on its channel (30_encoding.md R106). -/
def readLatest (ch : Nat) : Instr := .pop ch

/-- A value that ends a lockout: `not flt(fabs(v), EPS)` (30_encoding.md R106). -/
def isNudge (N : NumProfile Nat) (p : PidParams Nat) (v : Nat) : Bool :=
  !N.flt (N.fabs v) p.eps

end Sys2Proof.Machine
end

