-- ==== Sys2Proof/Machine/Environment.lean ====
section
/-! DEFINITION. The surroundings of the block that drive its ports or read its outputs
(60_exceptions.md R180, R190 to R198). They are outside the block (00_scope.md R8) and no step of the
machine uses them; what the spec leaves open in them is an argument (log 20). -/

namespace Sys2Proof.Machine

/-! ### Who may issue what (60_exceptions.md R180) -/

/-- The agents that drive a port; the producer and the consumer are those of one instance. -/
inductive Agent where
  | tickTimer
  | host
  | actuationConsumer
  | producer (ch : Nat)
  | consumer (ch : Nat)
  | resetSource
deriving DecidableEq, Repr

/-- The one agent that may issue an operation (60_exceptions.md R180). The block does not check it. -/
def instrAgent : Instr → Agent
  | .nop | .reset | .setSp _ | .setKp _ | .setKi _ | .setKd _ | .wrAct _ | .wrPv _ => .host
  | .tick => .tickTimer
  | .push ch _ => .producer ch
  | .pop ch => .consumer ch

/-- The agent that drives a port (60_exceptions.md R180). -/
def portAgent : PortWord → Agent
  | .cmd _ => .host
  | .tick _ => .tickTimer
  | .push ch _ => .producer ch
  | .popReq ch _ => .consumer ch

/-! ### PeriodicSampler (R190 to R193) -/

/-- A DeviceDescriptor: "bus identifier, device address/handle" (R190). -/
structure Device where
  busId : Nat
  addr : Nat
deriving DecidableEq, Repr

/-- A sampler with its device list in polling order, its bound, and the channel it fills (R190). -/
structure Sampler where
  maxDevices : Nat
  devices : List Device
  channel : Nat
deriving DecidableEq, Repr

/-- `addDevice` (R192): appended if there is room, otherwise nothing happens. The Boolean is the
capacity signal the source allows and does not require (U14). -/
def Sampler.addDevice (d : Device) (m : Sampler) : Sampler × Bool :=
  if m.devices.length < m.maxDevices then ({ m with devices := m.devices ++ [d] }, true)
  else (m, false)

/-- `onTick()` (R191): for each device in list order one read, whose outcome the bus driver gives, and
on success one push of the sample. A failed read is skipped and does not stop the others (R193).
DESIGN CHOICE (log 20): the rules do not say whether a descriptor registered twice may read differently
within one tick. `readBus` gives one outcome for each place in the list, numbered from 0, so it may. -/
def Sampler.onTick (readBus : Nat → Device → Option Elem) (m : Sampler) : List Instr :=
  m.devices.zipIdx.filterMap
    (fun entry => (readBus entry.2 entry.1).map (fun x => Instr.push m.channel x))

/-! ### The dual-channel actuation output (R194 to R198) -/

/-- A timing base with its comparator. `running = false` is a base that `stop` has halted; `shadow` is
the threshold that takes effect at the next period boundary (R196). -/
structure TimingBase where
  periodTicks : Nat
  threshold : Nat
  shadow : Nat
  running : Bool
deriving DecidableEq, Repr

/-- `configure` (R195): `none` is the reported configuration error. The frequency of the
high-resolution clock is not given (N21), nor is the threshold a fresh base starts with, so both are
arguments. DESIGN CHOICE (log 20): what `basePeriodTicks` means beside `frequency` is open (N21); the
period is the clock divided by the frequency, as the rule says, and `basePeriodTicks` has no effect.
DESIGN CHOICE (log 20): the types of the frequency and of the clock are not given; both are whole numbers,
so a fractional frequency cannot be configured, and the period is the whole number of ticks in their
quotient. -/
def configureBase (clockHz initial frequency _basePeriodTicks : Nat) : Option TimingBase :=
  if frequency = 0 then none
  else if clockHz / frequency < 1 then none
  else some { periodTicks := clockHz / frequency, threshold := initial, shadow := initial, running := true }

/-- A percentage, an exact rational (log 20), clamped to `[0, 100]` (R196). -/
def clampPercent (percent : Rat) : Rat := clamp profileQ percent 0 100

/-- `setDuty` (R196). The rounding of `round` is not given (U15), so it is an argument. DESIGN CHOICE
(log 20): the number format of `percent` and of `percent/100 * periodTicks` is not given; both are exact
rationals, so nothing is rounded before `round` and there is no NaN. -/
def TimingBase.setDuty (round : Rat → Nat) (percent : Rat) (b : TimingBase) : TimingBase :=
  { b with shadow := round (clampPercent percent / 100 * b.periodTicks) }

/-- The next period boundary: both outputs take the new threshold in sync (R196). -/
def TimingBase.boundary (b : TimingBase) : TimingBase := { b with threshold := b.shadow }

/-- `stop()` (R197): a halted base starts again only as a fresh result of `configureBase`. -/
def TimingBase.stop (b : TimingBase) : TimingBase := { b with running := false }

/-- The level of an output at a tick of the period; `inverted` is its switching action. The primary
and the complementary output of one base differ in it (R194, R196), as do the two outputs of the
conjugate-output mode (R198). A halted base drives no output (R197). -/
def TimingBase.level (inverted : Bool) (tickNo : Nat) (b : TimingBase) : Option Bool :=
  if b.running then some (decide (tickNo < b.threshold) != inverted) else none

end Sys2Proof.Machine
end

