-- ==== Sys2Proof/Safety.lean ====
section
/-! DEFINITION. The invariants of the block, the abstract contents of a channel, and executions, in the
terms the statements use. -/

namespace Sys2Proof.Machine

/-! ### Invariants -/

/-- `INTEGRAL` is not NaN and lies within `[INT_MIN, INT_MAX]` (10_state.md R27). -/
def IntegralInRange (N : NumProfile α) (p : PidParams α) (r : PidRegs α) : Prop :=
  N.isNaN r.integral = false ∧ N.flt r.integral p.intMin = false ∧ N.flt p.intMax r.integral = false

/-- The indices and the count of one instance (10_state.md R35, R36). -/
structure Fifo.IndicesOk (p : ChanParams) (f : Fifo) : Prop where
  count_le : f.count ≤ p.cap
  wr_lt : f.wr < p.cap
  rd_lt : f.rd < p.cap
  wr_eq : f.wr = (f.rd + f.count) % p.cap

/-- The backing array of one instance: canonical, with indices below `CAP` and elements of `W` bits
(10_state.md R31, 20_memory.md R60). -/
structure Fifo.ArrayOk (p : ChanParams) (f : Fifo) : Prop where
  canonical : f.mem.wf = true
  index_lt : ∀ i x, f.mem.read i = some x → i < p.cap
  elem_lt : ∀ i x, f.mem.read i = some x → x < 2 ^ p.w

/-- The contents of a channel (10_state.md R37), oldest first: the `COUNT` elements from `RD` on.
`none` would be an element nothing has stored. -/
def Fifo.contents (p : ChanParams) (f : Fifo) : List (Option Elem) :=
  (List.range f.count).map (fun k => f.mem.read ((f.rd + k) % p.cap))

/-- Every element of the contents has been stored, so no pop meets an unspecified one (R37, R42). -/
def Fifo.Stored (p : ChanParams) (f : Fifo) : Prop := none ∉ f.contents p

/-- The invariant of one instance. -/
structure Channel.Inv (c : Channel) : Prop where
  params : c.params.ok = true
  indices : c.fifo.IndicesOk c.params
  array : c.fifo.ArrayOk c.params
  stored : c.fifo.Stored c.params

/-- The eight registers (10_state.md R22). -/
def PidRegs.toList (r : PidRegs α) : List α :=
  [r.kp, r.ki, r.kd, r.sp, r.integral, r.lastError, r.act, r.pv]

/-- The profile's less-than puts no value below itself. That of `F32` does not (00_scope.md R13); nothing
is known of a profile the spec does not define (log 3). With the constraint `INT_MIN <= INT_MAX` no more
is needed for the range of `INTEGRAL`, a transitive order in particular (log 13). -/
def State.Ordered (s : State) : Prop := s.num = .f32 ∨ ∀ x, s.arith.flt x x = false

/-- The invariant of the machine after a reset. Each register has `NW` bits (10_state.md R22). The range
of `INTEGRAL` (R27) rests on the order of the profile. -/
structure State.Inv (s : State) : Prop where
  config : s.configOk = true
  ready : s.resetSeen = true
  widths : ∀ v ∈ s.regs.toList, v < 2 ^ s.num.nw
  integral : s.Ordered → IntegralInRange s.arith s.params s.regs
  channels : ∀ c ∈ s.chans, c.Inv

/-! ### Correct rounding (00_scope.md R13) -/

/-- The smallest magnitude, in units of 2^-149, that rounds to an infinity: half a spacing above the
largest finite binary32 value. -/
def overflowUnits : Nat := (2 ^ 25 - 1) * 2 ^ 252

/-- `r` is the exact quotient `n / d` (in units of 2^-149, `d > 0`) rounded once to binary32, to
nearest with ties to the even fraction: no finite value lies closer, one that lies as close is the odd
one, the sign is that of `n`, and a magnitude from `overflowUnits` on is an infinity. -/
def CorrectlyRounded (r : Num32) (n : Int) (d : Nat) : Prop :=
  (n ≠ 0 → signOf r = decide (n < 0)) ∧
  (n.natAbs < overflowUnits * d →
    isFinite r = true ∧
    ∀ c : Num32, isFinite c = true →
      (units r * d - n).natAbs ≤ (units c * d - n).natAbs ∧
      ((units r * d - n).natAbs = (units c * d - n).natAbs → units c ≠ units r →
        r.getLsbD 0 = false)) ∧
  (overflowUnits * d ≤ n.natAbs → isInf r = true)

/-! ### Executions as sequences of operations (00_scope.md R5) -/

/-- Operations applied one after another. -/
def runOps : List Instr → State → Result
  | [], s => .next s
  | i :: rest, s => andThen (exec i s) (runOps rest)

/-- The block an operation acts on: `none` is `PIDREG`, `some ch` is `BFIFO` instance `ch`
(00_scope.md R2, R4). -/
def blockOf : Instr → Option Nat
  | .nop | .reset | .setSp _ | .setKp _ | .setKi _ | .setKd _ | .wrAct _ | .wrPv _ | .tick => none
  | .push ch _ | .pop ch => some ch

/-- The lockout condition (00_scope.md R19, 70_reset_and_hazards.md R222). -/
def State.lockedOut (s : State) : Bool := tickGated s.arith s.params s.regs

/-! ### Executions as sequences of clock cycles -/

/-- `k` clock cycles. -/
def runCycles : Nat → State → Result
  | 0, s => .next s
  | k + 1, s => andThen (step s) (runCycles k)

/-- The state in which the operations of a cycle start: its inputs taken, and no result signalled
yet (70_reset_and_hazards.md R227). -/
def State.started (s : State) : State := s.consumeInputs.beginCycle

/-- The cycle that presents a push of `item` and a pop to instance `ch`, whose elements have `w` bits,
and nothing else. -/
def pushPopCycle (w ch : Nat) (item : Elem) : PortInputs :=
  { PortInputs.quiet with
    chans := List.replicate ch ChanIn.quiet ++ [{ push := pushWord w item, popReq := true }] }

/-- The cycle that presents a tick and a command word, and nothing else. -/
def tickCommandCycle (c : Nat) : PortInputs :=
  { PortInputs.quiet with tick := true, cmdValid := true, cmd := c }

/-- `push_ok` of instance `ch`. -/
def State.pushOk (s : State) (ch : Nat) : Bool :=
  match s.chans[ch]? with
  | some c => c.out.pushOk
  | none => false

/-- The element instance `ch` has popped in the cycle just run, if any. -/
def State.popped (s : State) (ch : Nat) : Option Elem :=
  match s.chans[ch]? with
  | some c => c.out.popped
  | none => none

/-- The contents of instance `ch`. -/
def State.contents (s : State) (ch : Nat) : List (Option Elem) :=
  match s.chans[ch]? with
  | some c => c.fifo.contents c.params
  | none => []

/-- The `push_data` instance `ch` is presented in the coming cycle. -/
def State.pushData (s : State) (ch : Nat) : Elem :=
  match (fetchInputs s).chans[ch]?, s.chans[ch]? with
  | some ci, some c => lowBits c.params.w ci.push
  | _, _ => 0

/-- The elements of the successful pushes into `ch` in the first `k` cycles from `s`, in order. -/
def pushesAlong (ch : Nat) : Nat → State → List Elem
  | 0, _ => []
  | k + 1, s =>
    match step s with
    | .next t => (if t.pushOk ch then [s.pushData ch] else []) ++ pushesAlong ch k t
    | .fault _ => []
    | .refused _ => []

/-- The elements of the successful pops from `ch` in the first `k` cycles from `s`, in order. -/
def popsAlong (ch : Nat) : Nat → State → List Elem
  | 0, _ => []
  | k + 1, s =>
    match step s with
    | .next t => (t.popped ch).toList ++ popsAlong ch k t
    | .fault _ => []
    | .refused _ => []

/-- No cycle on the way asserts `rst`. -/
def State.noReset (s : State) : Bool := s.inputs.all (fun c => !c.rst)

end Sys2Proof.Machine
end

