-- ==== Sys2Proof/Certificates/Slice0/Obligations.lean ====
section
/-! DEFINITION. The statements for the provers. Each docstring names the sentences of spec/ it
formalises. A clock cycle is given by `s.present c`, the state `s` with `c` as the port values of its
coming cycle; `s.started` is the state that cycle's operations start from. -/

open Sys2Proof Sys2Proof.Machine

/-! ### Encoding -/

/-- The worked encodings of 30_encoding.md section 5, and the one-bit formats (R86, R88). -/
def Obligations.WorkedEncodingsDecode : Prop :=
  decodeCmd 32 0x241200000 = .op (.setSp 0x41200000) ∧
  decodeCmd 32 0x33F800000 = .op (.setKp 0x3F800000) ∧
  decodeCmd 32 0x640A00000 = .op (.wrAct 0x40A00000) ∧
  decodeCmd 32 0x100000000 = .op .reset ∧
  (∀ ch, decodePush 8 ch 0x1A7 = .op (.push ch 0xA7)) ∧
  decodeTick true = .op .tick ∧
  (∀ ch, decodePop ch true = .op (.pop ch))

/-- Every well-formed operation, with every operand it admits, is what its own word decodes to. -/
def Obligations.DecodeOfEncodeIsTheOperation : Prop :=
  ∀ (widths : PortWidths) (i : Instr),
    i.wellFormed widths = true → decode widths (encode widths i) = .op i

/-- Every command word that carries an operand is the word of the operation it decodes to; the two
operations that ignore `data` are sent with zero (D27). -/
def Obligations.EncodeOfDecodedCommandIsTheWord : Prop :=
  ∀ (widths : PortWidths) (c : Nat) (i : Instr),
    c < 2 ^ (widths.nw + 4) → decodeCmd widths.nw c = .op i →
    (i ≠ .nop → i ≠ .reset → encode widths i = .cmd c) ∧
    (i = .nop ∨ i = .reset →
      ∃ op, encode widths i = .cmd (cmdWord widths.nw op 0) ∧ op.toNat = c / 2 ^ widths.nw)

/-- 30_encoding.md R84, code by code: bits `NW+3:NW` of the word select the operation and bits `NW-1:0`
are its operand. -/
def Obligations.OperationCodeSelectsTheCommand : Prop :=
  ∀ (nw c v : Nat), c < 2 ^ (nw + 4) → v = c % 2 ^ nw →
    (c / 2 ^ nw = 0x0 → decodeCmd nw c = .op .nop) ∧
    (c / 2 ^ nw = 0x1 → decodeCmd nw c = .op .reset) ∧
    (c / 2 ^ nw = 0x2 → decodeCmd nw c = .op (.setSp v)) ∧
    (c / 2 ^ nw = 0x3 → decodeCmd nw c = .op (.setKp v)) ∧
    (c / 2 ^ nw = 0x4 → decodeCmd nw c = .op (.setKi v)) ∧
    (c / 2 ^ nw = 0x5 → decodeCmd nw c = .op (.setKd v)) ∧
    (c / 2 ^ nw = 0x6 → decodeCmd nw c = .op (.wrAct v)) ∧
    (c / 2 ^ nw = 0x7 → decodeCmd nw c = .op (.wrPv v)) ∧
    (0x8 ≤ c / 2 ^ nw →
      ∃ code, decodeCmd nw c = .reserved code v ∧ code.toNat = c / 2 ^ nw)

/-- 41_pid_host.md R139: in every cycle, whatever else it presents, a command word with a reserved
code has the effect of `PID.NOP`. -/
def Obligations.ReservedCodeActsAsNop : Prop :=
  ∀ (s : State) (p : PortInputs) (c d : Nat), c < 2 ^ (s.num.nw + 4) → 0x8 ≤ c / 2 ^ s.num.nw →
    d < 2 ^ s.num.nw →
    runDecoded (decodeCmd s.num.nw c) s = exec .nop s ∧
    step (s.present { p with cmd := c }) =
      step (s.present { p with cmd := cmdWord s.num.nw 0x0#4 d })

/-! ### A step runs what its ports present -/

/-- In a good configuration, after the first reset, a cycle in which one port presents a word that
decodes to a well-formed operation runs exactly that operation, from the state with that cycle's
inputs taken and no result signalled. -/
def Obligations.StepRunsThePresentedOperation : Prop :=
  ∀ (s : State) (p : PortWord) (i : Instr),
    s.configOk = true → s.resetSeen = true → decode s.widths p = .op i →
    i.wellFormed s.widths = true →
    step (s.present (PortInputs.ofWord p)) = exec i s.started

/-- A row of spec/opcode_table.json placed by `withFetchWord` is run by the next step as the operation
`decodeTableWord` reads from it. The numbering of rows T, P and Q on one word is the model's choice
(log 7). -/
def Obligations.PlacedTableWordRunsNext : Prop :=
  ∀ (s : State) (nbits w : Nat) (i : Instr),
    s.configOk = true → s.resetSeen = true → decodeTableWord nbits w = some i →
    i.wellFormed s.widths = true →
    step (s.withFetchWord nbits w) = exec i s.started

/-- A cycle without reset in which no port presents anything, whatever stands on `cmd` with
`cmd_valid = 0` (30_encoding.md R83) and on `push_data` with `push_valid = 0` (R87), changes no
register, no index, no count and no array, and signals no result. That it is not refused before the
first reset (log 12), and that a step with no inputs left is such a cycle (log 5), are the model's
choices. -/
def Obligations.QuietCycleChangesNothing : Prop :=
  ∀ (s : State) (p : PortInputs), s.configOk = true → p.rst = false →
    p.tick = false → p.cmdValid = false → p.chans.length ≤ s.chans.length →
    (∀ (ch : Nat) (ci : ChanIn) (c : Channel), p.chans[ch]? = some ci → s.chans[ch]? = some c →
      ci.push.testBit c.params.w = false ∧ ci.popReq = false) →
    p.presents s.widths = false ∧
    step (s.present p) = .next s.started ∧
    (s.inputs = [] → step s = .next s.started) ∧
    s.started.num = s.num ∧ s.started.params = s.params ∧ s.started.regs = s.regs ∧
    (∀ ch : Nat, (s.started.chans[ch]?).map Channel.fifo = (s.chans[ch]?).map Channel.fifo) ∧
    (∀ ch : Nat, s.started.pushOk ch = false ∧ s.started.popped ch = none)

/-- 41_pid_host.md R141: in a cycle with a tick and a command, the tick reads the registers as they were
at the start of the cycle and the command's write lands last. With the consequences the rule lists: a
setter does not affect that tick, `PID.RESET` leaves `INTEGRAL = LAST_ERROR = ZERO` and the tick's
`ACT`, and `PID.WRACT v` leaves `ACT = v` with the tick's `INTEGRAL` and `LAST_ERROR`. The other ports
of such a cycle are in `CycleServesEveryPort`. -/
def Obligations.TickThenCommandInOneCycle : Prop :=
  ∀ s : State, s.configOk = true → s.resetSeen = true →
    (∀ c : Nat, step (s.present (tickCommandCycle c)) =
      andThen (exec .tick s.started) (runDecoded (decodeCmd s.num.nw c))) ∧
    ∀ (u : State) (d v : Nat), exec .tick s.started = .next u →
      d < 2 ^ s.num.nw → v < 2 ^ s.num.nw →
      step (s.present (tickCommandCycle (cmdWord s.num.nw 0x1#4 d))) =
        .next { u with regs := { u.regs with integral := s.arith.zero,
                                             lastError := s.arith.zero } } ∧
      step (s.present (tickCommandCycle (cmdWord s.num.nw 0x2#4 v))) =
        .next { u with regs := { u.regs with sp := v } } ∧
      step (s.present (tickCommandCycle (cmdWord s.num.nw 0x3#4 v))) =
        .next { u with regs := { u.regs with kp := v } } ∧
      step (s.present (tickCommandCycle (cmdWord s.num.nw 0x4#4 v))) =
        .next { u with regs := { u.regs with ki := v } } ∧
      step (s.present (tickCommandCycle (cmdWord s.num.nw 0x5#4 v))) =
        .next { u with regs := { u.regs with kd := v } } ∧
      step (s.present (tickCommandCycle (cmdWord s.num.nw 0x6#4 v))) =
        .next { u with regs := { u.regs with act := v } } ∧
      step (s.present (tickCommandCycle (cmdWord s.num.nw 0x7#4 v))) =
        .next { u with regs := { u.regs with pv := v } }

/-- 60_exceptions.md section 2: a cycle in which any ports of any blocks present operations. The
regulator's registers become what the tick and then the command make of them, and each instance becomes
what its own two ports make of it, as if no other port presented anything. That a tick that meets a NaN
leaves the whole cycle without a successor is the model's choice (log 14). -/
def Obligations.CycleServesEveryPort : Prop :=
  ∀ (s : State) (p : PortInputs), s.configOk = true → s.resetSeen = true → p.rst = false →
    p.chans.length ≤ s.chans.length →
    (p.tick = true → exec .tick s.started = .fault .nanTick →
      step (s.present p) = .fault .nanTick) ∧
    ∀ u, andThen (if p.tick = true then exec .tick s.started else .next s.started)
          (fun v => if p.cmdValid = true then runDecoded (decodeCmd s.num.nw p.cmd) v else .next v)
        = .next u →
      ∃ t, step (s.present p) = .next t ∧ t.regs = u.regs ∧
        t.num = s.num ∧ t.params = s.params ∧ t.memEpoch = s.memEpoch ∧
        t.resetSeen = s.resetSeen ∧ t.inputs = s.inputs.tail ∧
        (∀ ch : Nat, p.chans[ch]? = none → t.chans[ch]? = s.started.chans[ch]?) ∧
        ∀ (ch : Nat) (c : Channel) (ci : ChanIn), s.chans[ch]? = some c → p.chans[ch]? = some ci →
          ∃ v, (match ci.push.testBit c.params.w, ci.popReq with
            | true, true =>
              step (s.present (pushPopCycle c.params.w ch (ci.push % 2 ^ c.params.w)))
            | true, false => exec (.push ch (ci.push % 2 ^ c.params.w)) s.started
            | false, true => exec (.pop ch) s.started
            | false, false => .next s.started) = .next v ∧
            t.chans[ch]? = v.chans[ch]?

/-! ### Reset and configuration -/

/-- 70_reset_and_hazards.md R210 with the values of 10_state.md R41 and R42: a cycle with `rst = 1`,
whatever else it presents, before or after any earlier reset. The machine is then ready for any
operation (R212). -/
def Obligations.ResetCycleRestoresEveryRegister : Prop :=
  ∀ (s : State) (p : PortInputs), s.configOk = true → p.rst = true →
    p.chans.length ≤ s.chans.length →
    ∃ t, step (s.present p) = .next t ∧
      t.num = s.num ∧ t.params = s.params ∧ t.inputs = s.inputs.tail ∧
      t.resetSeen = true ∧ t.Inv ∧
      t.regs.integral = s.arith.zero ∧ t.regs.lastError = s.arith.zero ∧
      (s.num = .f32 → s.arith.zero = 0x00000000) ∧
      t.regs.sp = s.params.sp0 ∧ t.regs.kp = s.params.kp0 ∧ t.regs.ki = s.params.ki0 ∧
      t.regs.kd = s.params.kd0 ∧ t.regs.act = s.params.act0 ∧ t.regs.pv = s.params.pv0 ∧
      t.chans.length = s.chans.length ∧
      ∀ (ch : Nat) (c : Channel), s.chans[ch]? = some c →
        ∃ c' : Channel, t.chans[ch]? = some c' ∧ c'.params = c.params ∧
          c'.fifo.wr = 0 ∧ c'.fifo.rd = 0 ∧ c'.fifo.count = 0 ∧
          c'.out.pushOk = false ∧ c'.out.popped = none

/-- 70_reset_and_hazards.md R213: an operation before the first reset is refused, alone or with any
number of operations on other ports in the same cycle. -/
def Obligations.OperationBeforeFirstResetIsRefused : Prop :=
  ∀ s : State, s.configOk = true → s.resetSeen = false →
    (∀ (w : PortWord) (i : Instr), decode s.widths w = .op i → i.wellFormed s.widths = true →
      step (s.present (PortInputs.ofWord w)) = .refused .beforeFirstReset) ∧
    ∀ p : PortInputs, p.rst = false → p.chans.length ≤ s.chans.length →
      (p.tick = true ∨ p.cmdValid = true ∨
        ∃ (ch : Nat) (ci : ChanIn) (c : Channel), p.chans[ch]? = some ci ∧ s.chans[ch]? = some c ∧
          (ci.push.testBit c.params.w = true ∨ ci.popReq = true)) →
      step (s.present p) = .refused .beforeFirstReset

/-- 00_scope.md R10: a configuration that breaks any of the constraints has no meaning, `INT_MIN <=
INT_MAX` among them (D3). `a <= b` fails if `b` is less than `a`; that every parameter is finite is asked
under `F32`. -/
def Obligations.BrokenConfigurationIsRefused : Prop :=
  ∀ (s : State),
    (s.arith.flt s.arith.zero s.params.period = false ∨
      s.arith.flt s.params.inMax s.params.inMin = true ∨
      s.arith.flt s.params.intMax s.params.intMin = true ∨
      s.arith.flt s.arith.zero s.params.intMin = true ∨
      s.arith.flt s.params.intMax s.arith.zero = true ∨
      s.arith.flt s.params.eps s.arith.zero = true ∨
      (s.num = .f32 ∧ ∃ v ∈ [s.params.period, s.params.inMin, s.params.inMax, s.params.intMin,
              s.params.intMax, s.params.eps, s.params.sp0, s.params.kp0, s.params.ki0,
              s.params.kd0, s.params.act0, s.params.pv0], isFinite (dec32 v) = false) ∨
      (∃ c ∈ s.chans, c.params.cap = 0 ∨ c.params.w = 0)) →
    step s = .refused .badConfiguration

/-- Only a configuration that breaks one of those constraints, or the types of 00_scope.md R9, is
refused: no channel at all, `NW` zero, or a parameter that is no encoding of `NW` bits (refusing these
is the model's reading, log 13). -/
def Obligations.GoodConfigurationIsAccepted : Prop :=
  ∀ (s : State), s.chans ≠ [] → 1 ≤ s.num.nw →
    s.arith.flt s.arith.zero s.params.period = true →
    s.arith.flt s.params.inMax s.params.inMin = false →
    s.arith.flt s.params.intMax s.params.intMin = false →
    s.arith.flt s.arith.zero s.params.intMin = false →
    s.arith.flt s.params.intMax s.arith.zero = false →
    s.arith.flt s.params.eps s.arith.zero = false →
    (∀ v ∈ [s.params.period, s.params.inMin, s.params.inMax, s.params.intMin, s.params.intMax,
            s.params.eps, s.params.sp0, s.params.kp0, s.params.ki0, s.params.kd0,
            s.params.act0, s.params.pv0],
      v < 2 ^ s.num.nw ∧ (s.num = .f32 → isFinite (dec32 v) = true)) →
    (∀ c ∈ s.chans, 1 ≤ c.params.cap ∧ 1 ≤ c.params.w) →
    s.configOk = true

/-! ### Host commands -/

/-- 41_pid_host.md R130, whatever the ignored `data` field holds. -/
def Obligations.NopReadsAndWritesNoState : Prop :=
  (∀ nw d : Nat, d < 2 ^ nw → decodeCmd nw (cmdWord nw 0x0#4 d) = .op .nop) ∧
  ∀ s : State, exec .nop s = .next s

/-- 41_pid_host.md R131: only `INTEGRAL` and `LAST_ERROR` are written, with `ZERO`, which is `+0` under
`F32`; in particular `ACT` stays, so a lockout stays. -/
def Obligations.ResetCommandClearsErrorMemory : Prop :=
  (∀ nw d : Nat, d < 2 ^ nw → decodeCmd nw (cmdWord nw 0x1#4 d) = .op .reset) ∧
  ∀ s : State, ∃ t, exec .reset s = .next t ∧
    t = { s with regs := { s.regs with integral := s.arith.zero, lastError := s.arith.zero } } ∧
    (s.num = .f32 → s.arith.zero = 0x00000000) ∧
    t.lockedOut = s.lockedOut

/-- 41_pid_host.md R131, the source's reset test (S3 of 95_test_vectors.md): `PID.RESET` and a tick
give, bit for bit, what a freshly reset regulator's tick gives, when the gains, the setpoint and `ACT`
equal the fresh values. -/
def Obligations.ResetThenTickEqualsFreshTick : Prop :=
  ∀ (s t : State),
    s.regs.kp = s.params.kp0 → s.regs.ki = s.params.ki0 → s.regs.kd = s.params.kd0 →
    s.regs.sp = s.params.sp0 → s.regs.act = s.params.act0 →
    exec .tick s.hardReset = .next t →
    ∃ u, andThen (exec .reset s) (exec .tick) = .next u ∧
      u.regs.integral = t.regs.integral ∧ u.regs.lastError = t.regs.lastError ∧
      u.regs.act = t.regs.act

/-- 41_pid_host.md R133 and R135: `PID.SETKP v` and `PID.SETKD v` write one register and nothing else,
for every bit pattern; the examples are the rules' own. -/
def Obligations.SetKpAndSetKdWriteOneRegister : Prop :=
  (∀ nw v : Nat, v < 2 ^ nw → decodeCmd nw (cmdWord nw 0x3#4 v) = .op (.setKp v)) ∧
  (∀ nw v : Nat, v < 2 ^ nw → decodeCmd nw (cmdWord nw 0x5#4 v) = .op (.setKd v)) ∧
  cmdWord 32 0x3#4 0x40000000 = 0x340000000 ∧ cmdWord 32 0x5#4 0x3E800000 = 0x53E800000 ∧
  ∀ (s : State) (v : Nat), v < 2 ^ s.num.nw →
    exec (.setKp v) s = .next { s with regs := { s.regs with kp := v } } ∧
    exec (.setKd v) s = .next { s with regs := { s.regs with kd := v } }

/-- `PID.SETSP v` and `PID.SETKI v` (41_pid_host.md section 1): one register, no range check, and
`INTEGRAL` is neither rescaled nor cleared by a new `KI`. -/
def Obligations.SetSpAndSetKiWriteOneRegister : Prop :=
  (∀ nw v : Nat, v < 2 ^ nw → decodeCmd nw (cmdWord nw 0x2#4 v) = .op (.setSp v)) ∧
  (∀ nw v : Nat, v < 2 ^ nw → decodeCmd nw (cmdWord nw 0x4#4 v) = .op (.setKi v)) ∧
  ∀ (s : State) (v : Nat), v < 2 ^ s.num.nw →
    exec (.setSp v) s = .next { s with regs := { s.regs with sp := v } } ∧
    exec (.setKi v) s = .next { s with regs := { s.regs with ki := v } }

/-- 41_pid_host.md R136: each setter writes its field and does nothing else, and the tick that follows
computes every step with the new value. The tick is the one of 40_pid_tick.md, run on the registers
with that field replaced. -/
def Obligations.SetterIsUsedByTheNextTick : Prop :=
  ∀ (s : State) (v : Nat), v < 2 ^ s.num.nw →
    (∀ r, pidTick s.arith s.params { s.regs with sp := v } = some r →
      andThen (exec (.setSp v) s) (exec .tick) = .next { s with regs := r } ∧ r.sp = v) ∧
    (∀ r, pidTick s.arith s.params { s.regs with kp := v } = some r →
      andThen (exec (.setKp v) s) (exec .tick) = .next { s with regs := r } ∧ r.kp = v) ∧
    (∀ r, pidTick s.arith s.params { s.regs with ki := v } = some r →
      andThen (exec (.setKi v) s) (exec .tick) = .next { s with regs := r } ∧ r.ki = v) ∧
    (∀ r, pidTick s.arith s.params { s.regs with kd := v } = some r →
      andThen (exec (.setKd v) s) (exec .tick) = .next { s with regs := r } ∧ r.kd = v)

/-- 41_pid_host.md R137: the value is stored unclamped, and clamped only as the next tick reads it; it
replaces what the last tick computed; a value
of magnitude below `EPS` puts the regulator into lockout, any other value ends one. -/
def Obligations.WrActStoresTheValueUnclamped : Prop :=
  (∀ nw v : Nat, v < 2 ^ nw → decodeCmd nw (cmdWord nw 0x6#4 v) = .op (.wrAct v)) ∧
  cmdWord 32 0x6#4 0x40A00000 = 0x640A00000 ∧
  ∀ (s : State) (v : Nat), v < 2 ^ s.num.nw → ∃ t, exec (.wrAct v) s = .next t ∧
    t = { s with regs := { s.regs with act := v } } ∧
    t.lockedOut = s.arith.flt (s.arith.fabs v) s.params.eps ∧
    tickInput t.arith t.params t.regs = clamp s.arith v s.params.inMin s.params.inMax

/-- 41_pid_host.md R138 and 10_state.md R29: `PID.WRPV v` writes `PV` alone, and it makes no difference
whether it comes before or after any other regulator operation but another write of `PV`. -/
def Obligations.ProcessVariableReachesNoOperation : Prop :=
  (∀ nw v : Nat, v < 2 ^ nw → decodeCmd nw (cmdWord nw 0x7#4 v) = .op (.wrPv v)) ∧
  cmdWord 32 0x7#4 0x41400000 = 0x741400000 ∧
  (∀ (s : State) (v : Nat), v < 2 ^ s.num.nw →
    exec (.wrPv v) s = .next { s with regs := { s.regs with pv := v } }) ∧
  (∀ (s : State) (v : Nat) (i : Instr), (∀ u, i ≠ .wrPv u) →
    andThen (exec (.wrPv v) s) (exec i) = andThen (exec i s) (exec (.wrPv v)))

/-! ### The tick -/

/-- 40_pid_tick.md R111: below `EPS` nothing is written, under every profile; the test is strict and on
the raw register. Under `F32` the zeros gate whenever `EPS > 0`, nothing gates with `EPS = 0`, and a
NaN does not gate. -/
def Obligations.NearZeroGateIsStrictAndRaw : Prop :=
  (∀ s : State, s.arith.flt (s.arith.fabs s.regs.act) s.params.eps = true →
    exec .tick s = .next s) ∧
  (∀ s : State, s.lockedOut = s.arith.flt (s.arith.fabs s.regs.act) s.params.eps) ∧
  (∀ s : State, s.num = .f32 →
    s.lockedOut = flt (fabs (dec32 s.regs.act)) (dec32 s.params.eps)) ∧
  (∀ x eps : Num32, fabs x = eps → flt (fabs x) eps = false) ∧
  (∀ eps : Num32, flt 0x00000000#32 eps = true →
    flt (fabs 0x00000000#32) eps = true ∧ flt (fabs 0x80000000#32) eps = true) ∧
  (∀ x : Num32, flt (fabs x) 0x00000000#32 = false ∧ flt (fabs x) 0x80000000#32 = false) ∧
  (∀ x eps : Num32, isNaN x = true → flt (fabs x) eps = false)

/-- 40_pid_tick.md R110, under the profile of the instance, whatever it is: a gated tick writes nothing;
any other tick without a NaN among its values completes, and writes `INTEGRAL`, `LAST_ERROR` and `ACT`
and nothing else, with the values of the pseudocode. Under a profile other than `F32` no value is NaN
(log 3). -/
def Obligations.TickComputesThePseudocode : Prop :=
  ∀ (s : State) (N : NumProfile Nat) (a e i1 d out : Nat), N = s.arith →
    (N.flt (N.fabs s.regs.act) s.params.eps = true → exec .tick s = .next s) ∧
    (N.flt (N.fabs s.regs.act) s.params.eps = false →
    a = clamp N s.regs.act s.params.inMin s.params.inMax →
    e = N.fsub s.regs.sp a →
    i1 = clamp N (N.fadd s.regs.integral (N.fmul e s.params.period)) s.params.intMin
      s.params.intMax →
    d = N.fdiv (N.fsub e s.regs.lastError) s.params.period →
    out = clamp N (N.fadd (N.fadd (N.fmul s.regs.kp e) (N.fmul s.regs.ki i1)) (N.fmul s.regs.kd d))
      s.params.inMin s.params.inMax →
    (s.num = .f32 → isNaN (dec32 a) = false ∧ isNaN (dec32 e) = false ∧
      isNaN (dec32 i1) = false ∧ isNaN (dec32 d) = false ∧ isNaN (dec32 out) = false) →
    exec .tick s =
      .next { s with regs := { s.regs with integral := i1, lastError := e, act := out } })

/-- The model's fault of 40_pid_tick.md section 3 (NaN under `F32`): exactly the ungated ticks under
`F32` with a NaN among `a`, `e`, `i1`, `d`, `out`. That no tick under a profile the spec does not define
is such a fault is the model's reading (log 3). -/
def Obligations.TickFaultsExactlyOnNaN : Prop :=
  ∀ (s : State) (N : NumProfile Nat) (a e i1 d out : Nat), N = s.arith →
    a = clamp N s.regs.act s.params.inMin s.params.inMax →
    e = N.fsub s.regs.sp a →
    i1 = clamp N (N.fadd s.regs.integral (N.fmul e s.params.period)) s.params.intMin
      s.params.intMax →
    d = N.fdiv (N.fsub e s.regs.lastError) s.params.period →
    out = clamp N (N.fadd (N.fadd (N.fmul s.regs.kp e) (N.fmul s.regs.ki i1)) (N.fmul s.regs.kd d))
      s.params.inMin s.params.inMax →
    (exec .tick s = .fault .nanTick ↔
      s.num = .f32 ∧ N.flt (N.fabs s.regs.act) s.params.eps = false ∧
      (isNaN (dec32 a) = true ∨ isNaN (dec32 e) = true ∨ isNaN (dec32 i1) = true ∨
        isNaN (dec32 d) = true ∨ isNaN (dec32 out) = true))

/-- The last sentence but one of the NaN paragraph of 40_pid_tick.md section 3: under `F32`, with every
register finite and no overflow a NaN cannot arise, so the tick completes. Overflow here is an infinite
error, derivative or product; an infinite sum is clamped. -/
def Obligations.FiniteTickWithoutOverflowCompletes : Prop :=
  ∀ (s : State) (e i1 d : Num32), s.num = .f32 → s.configOk = true →
    (∀ v ∈ [s.regs.kp, s.regs.ki, s.regs.kd, s.regs.sp, s.regs.integral, s.regs.lastError,
            s.regs.act], isFinite (dec32 v) = true) →
    e = fsub (dec32 s.regs.sp)
      (clamp f32 (dec32 s.regs.act) (dec32 s.params.inMin) (dec32 s.params.inMax)) →
    i1 = clamp f32 (fadd (dec32 s.regs.integral) (fmul e (dec32 s.params.period)))
      (dec32 s.params.intMin) (dec32 s.params.intMax) →
    d = fdiv (fsub e (dec32 s.regs.lastError)) (dec32 s.params.period) →
    isInf e = false → isInf d = false → isInf (fmul (dec32 s.regs.kp) e) = false →
    isInf (fmul (dec32 s.regs.ki) i1) = false → isInf (fmul (dec32 s.regs.kd) d) = false →
    ∃ t, exec .tick s = .next t

/-- 40_pid_tick.md R118: the value an ungated tick writes to `ACT` lies within the input limits, under
`F32` and under every profile whose less-than is irreflexive. -/
def Obligations.WrittenActuationWithinLimits : Prop :=
  ∀ (s t : State), s.Ordered → s.configOk = true → s.lockedOut = false →
    exec .tick s = .next t →
    s.arith.flt t.regs.act s.params.inMin = false ∧ s.arith.flt s.params.inMax t.regs.act = false

/-- No register receives a NaN from a tick under `F32` (40_pid_tick.md section 3), so the NaN pattern the
model lets an invalid operation give (log 4) reaches no register. -/
def Obligations.TickNeverStoresNaN : Prop :=
  ∀ (s t : State), s.num = .f32 → s.lockedOut = false → exec .tick s = .next t →
    isNaN (dec32 t.regs.integral) = false ∧ isNaN (dec32 t.regs.lastError) = false ∧
    isNaN (dec32 t.regs.act) = false

/-- 40_pid_tick.md R119 for a tick, and 10_state.md section 2 for every other operation: `INTEGRAL` is
within `[INT_MIN, INT_MAX]` afterwards, under `F32` and under every profile whose less-than is
irreflexive. -/
def Obligations.IntegralStaysInRange : Prop :=
  ∀ (s t : State) (i : Instr), s.Ordered → s.configOk = true →
    IntegralInRange s.arith s.params s.regs → exec i s = .next t →
    IntegralInRange t.arith t.params t.regs

/-- The anti-windup sentence of 40_pid_tick.md R114 ("a further error of the same sign leaves it
there") under `F32`: an integrator at a bound stays at it while the error has the bound's sign. Values
are compared with `flt`, since a bound that is a zero may be stored with either sign. -/
def Obligations.SaturatedIntegratorStaysAtItsBound : Prop :=
  ∀ (s t : State) (N : NumProfile Nat) (e : Nat), N = s.arith → s.num = .f32 →
    s.configOk = true → s.lockedOut = false → exec .tick s = .next t →
    isNaN (dec32 s.regs.integral) = false →
    e = N.fsub s.regs.sp (clamp N s.regs.act s.params.inMin s.params.inMax) →
    (N.flt N.zero e = true →
      N.flt s.regs.integral s.params.intMax = false →
      N.flt s.params.intMax s.regs.integral = false →
      N.flt t.regs.integral s.params.intMax = false ∧
        N.flt s.params.intMax t.regs.integral = false) ∧
    (N.flt e N.zero = true →
      N.flt s.regs.integral s.params.intMin = false →
      N.flt s.params.intMin s.regs.integral = false →
      N.flt t.regs.integral s.params.intMin = false ∧
        N.flt s.params.intMin t.regs.integral = false)

/-- 40_pid_tick.md R120: two regulators with equal constants (the profile and the six of 10_state.md R30)
and equal values in the seven registers a tick reads produce bit-identical results, whatever their `PV`,
their reset values and the rest of their states. -/
def Obligations.TickIsAFunctionOfSevenRegisters : Prop :=
  ∀ (s s' : State), s.num = s'.num → s.params.period = s'.params.period →
    s.params.inMin = s'.params.inMin → s.params.inMax = s'.params.inMax →
    s.params.intMin = s'.params.intMin → s.params.intMax = s'.params.intMax →
    s.params.eps = s'.params.eps →
    s.regs.act = s'.regs.act → s.regs.sp = s'.regs.sp →
    s.regs.integral = s'.regs.integral → s.regs.lastError = s'.regs.lastError →
    s.regs.kp = s'.regs.kp → s.regs.ki = s'.regs.ki → s.regs.kd = s'.regs.kd →
    (exec .tick s = .fault .nanTick ↔ exec .tick s' = .fault .nanTick) ∧
    ∀ t, exec .tick s = .next t →
      ∃ t', exec .tick s' = .next t' ∧ t'.regs.integral = t.regs.integral ∧
        t'.regs.lastError = t.regs.lastError ∧ t'.regs.act = t.regs.act ∧
        t'.regs.pv = s'.regs.pv ∧ t'.chans = s'.chans

/-- The lockout hazard of 70_reset_and_hazards.md section 3: from a lockout, every sequence of
well-formed operations without a `PID.WRACT` runs to its end and leaves `ACT` and the lockout as they
are; a sequence of ticks alone leaves the whole state as it is. -/
def Obligations.OnlyWrActEndsALockout : Prop :=
  (∀ (ops : List Instr) (s : State), s.lockedOut = true →
    (∀ i ∈ ops, i.wellFormed s.widths = true ∧ ∀ v, i ≠ .wrAct v) →
    ∃ t, runOps ops s = .next t ∧ t.lockedOut = true ∧ t.regs.act = s.regs.act) ∧
  (∀ (n : Nat) (s : State), s.lockedOut = true → runOps (List.replicate n .tick) s = .next s)

/-- Under profile `Q` the tick of 40_pid_tick.md never faults, keeps `INTEGRAL` in its range and writes
an `ACT` within the limits, with no proviso (00_scope.md section 5, 90_conflicts.md C9). -/
def Obligations.ExactTickNeverFaults : Prop :=
  ∀ (p : PidParams Rat) (r : PidRegs Rat), paramsOk profileQ p = true →
    ∃ r', pidTick profileQ p r = some r' ∧
      (IntegralInRange profileQ p r → IntegralInRange profileQ p r') ∧
      (tickGated profileQ p r = false → p.inMin ≤ r'.act ∧ r'.act ≤ p.inMax)

/-! ### binary32 (00_scope.md R13, 93_implementation_defined.md G1) -/

/-- `fadd` and `fsub` of finite values are the exact sum and difference rounded once. That an exact zero
sum is `-0` only when both operands are negative (for a difference: the first negative and the second
not), and that a magnitude past the largest finite value becomes an infinity, are PRESUMED from the
standard (log 15). -/
def Obligations.SumsAreCorrectlyRounded : Prop :=
  ∀ a b : Num32, isFinite a = true → isFinite b = true →
    CorrectlyRounded (fadd a b) (units a + units b) 1 ∧
    CorrectlyRounded (fsub a b) (units a - units b) 1 ∧
    (units a + units b = 0 →
      fadd a b = if signOf a && signOf b then 0x80000000#32 else 0x00000000#32) ∧
    (units a - units b = 0 →
      fsub a b = if signOf a && !signOf b then 0x80000000#32 else 0x00000000#32)

/-- `fmul` of finite values is the exact product rounded once, with the product's sign. A product of
two values in units of 2^-149 has the unit 2^-298. The sign of a zero product and the overflow to an
infinity are PRESUMED from the standard (log 15). -/
def Obligations.ProductsAreCorrectlyRounded : Prop :=
  ∀ a b : Num32, isFinite a = true → isFinite b = true →
    CorrectlyRounded (fmul a b) (units a * units b) (2 ^ 149) ∧
    signOf (fmul a b) = (signOf a != signOf b)

/-- `fdiv` of finite values by a nonzero one is the exact quotient rounded once, with the quotient's
sign. The sign of a zero quotient and the overflow to an infinity are PRESUMED from the standard
(log 15). -/
def Obligations.QuotientsAreCorrectlyRounded : Prop :=
  ∀ a b : Num32, isFinite a = true → isFinite b = true → units b ≠ 0 →
    CorrectlyRounded (fdiv a b) (units a * 2 ^ 149 * (units b).sign) (units b).natAbs ∧
    signOf (fdiv a b) = (signOf a != signOf b)

/-- The operations on infinities and NaN. `inf - inf` and `0 * inf` are NaN (40_pid_tick.md section 3,
93_implementation_defined.md G1), and so is every operation on a NaN; the other results are PRESUMED
from the standard (log 15). Which NaN it is, is left out (log 4). -/
def Obligations.InfinitiesAndNaNsAreCarried : Prop :=
  ∀ a b : Num32,
    (isNaN a = true ∨ isNaN b = true →
      isNaN (fadd a b) = true ∧ isNaN (fsub a b) = true ∧ isNaN (fmul a b) = true ∧
      isNaN (fdiv a b) = true) ∧
    (isInf a = true → isFinite b = true →
      fadd a b = a ∧ fadd b a = a ∧ fsub a b = a ∧
      isInf (fsub b a) = true ∧ signOf (fsub b a) = !signOf a) ∧
    (isInf a = true → isInf b = true →
      (signOf a = signOf b → fadd a b = a ∧ isNaN (fsub a b) = true) ∧
      (signOf a ≠ signOf b → isNaN (fadd a b) = true ∧ fsub a b = a)) ∧
    (isInf a = true → isFinite b = true → units b = 0 →
      isNaN (fmul a b) = true ∧ isNaN (fmul b a) = true) ∧
    (isInf a = true → isNaN b = false → ¬(isFinite b = true ∧ units b = 0) →
      isInf (fmul a b) = true ∧ signOf (fmul a b) = (signOf a != signOf b) ∧
      fmul b a = fmul a b) ∧
    (isInf a = true → isInf b = true → isNaN (fdiv a b) = true) ∧
    (isInf a = true → isFinite b = true →
      isInf (fdiv a b) = true ∧ signOf (fdiv a b) = (signOf a != signOf b)) ∧
    (isFinite a = true → isInf b = true →
      isFinite (fdiv a b) = true ∧ units (fdiv a b) = 0 ∧
      signOf (fdiv a b) = (signOf a != signOf b)) ∧
    (isFinite a = true → isFinite b = true → units b = 0 →
      (units a = 0 → isNaN (fdiv a b) = true) ∧
      (units a ≠ 0 → isInf (fdiv a b) = true ∧ signOf (fdiv a b) = (signOf a != signOf b)))

/-- Profile `F32` on the registers: `NW = 32`, `ZERO` is `+0`, and each primitive is the binary32
operation on the values the encodings stand for, with the encoding of its result. `fabs` clears the sign
bit and nothing else (00_scope.md R13). -/
def Obligations.F32WorksOnEncodings : Prop :=
  Profile.f32.nw = 32 ∧ (profileArith .f32).zero = 0x00000000 ∧
  (∀ x : Num32, dec32 x.toNat = x) ∧ (∀ x : Nat, x < 2 ^ 32 → (dec32 x).toNat = x) ∧
  (∀ x : Num32, signOf (fabs x) = false ∧ magBits (fabs x) = magBits x) ∧
  ∀ a b : Nat,
    (profileArith .f32).fadd a b = (fadd (dec32 a) (dec32 b)).toNat ∧
    (profileArith .f32).fsub a b = (fsub (dec32 a) (dec32 b)).toNat ∧
    (profileArith .f32).fmul a b = (fmul (dec32 a) (dec32 b)).toNat ∧
    (profileArith .f32).fdiv a b = (fdiv (dec32 a) (dec32 b)).toNat ∧
    (profileArith .f32).fabs a = (fabs (dec32 a)).toNat ∧
    (profileArith .f32).flt a b = flt (dec32 a) (dec32 b)

/-- `flt` is the order of the values on finite operands, false on a NaN, and puts the infinities at the
ends, the negative one below the positive one and neither below itself. -/
def Obligations.LessThanIsNumericOrder : Prop :=
  ∀ a b : Num32,
    (isFinite a = true → isFinite b = true → (flt a b = true ↔ units a < units b)) ∧
    (isNaN a = true ∨ isNaN b = true → flt a b = false) ∧
    (isFinite a = true → flt a 0x7F800000#32 = true ∧ flt 0xFF800000#32 a = true ∧
      flt 0x7F800000#32 a = false ∧ flt a 0xFF800000#32 = false) ∧
    (isInf a = true → isInf b = true →
      (flt a b = true ↔ signOf a = true ∧ signOf b = false))

/-- 00_scope.md R15: the clamp under every profile, and under `F32` its bounds and its four cases. -/
def Obligations.ClampCasesUnderF32 : Prop :=
  (∀ (α : Type) (N : NumProfile α) (v lo hi : α),
    (N.flt v lo = true → clamp N v lo hi = lo) ∧
    (N.flt v lo = false → N.flt hi v = true → clamp N v lo hi = hi) ∧
    (N.flt v lo = false → N.flt hi v = false → clamp N v lo hi = v)) ∧
  ∀ v lo hi : Num32, numLe f32 lo hi = true → isFinite lo = true → isFinite hi = true →
    (flt v lo = true → clamp f32 v lo hi = lo) ∧
    (flt v lo = false → flt hi v = true → clamp f32 v lo hi = hi) ∧
    (flt v lo = false → flt hi v = false → clamp f32 v lo hi = v) ∧
    clamp f32 lo lo hi = lo ∧ clamp f32 hi lo hi = hi ∧
    (isNaN v = true → clamp f32 v lo hi = v) ∧
    clamp f32 0x7F800000#32 lo hi = hi ∧ clamp f32 0xFF800000#32 lo hi = lo ∧
    (lo = 0x00000000#32 → clamp f32 0x80000000#32 lo hi = 0x80000000#32)

/-! ### Channels: single operations -/

/-- `FIFO.PUSH` on a channel that is not full (42_fifo.md R150): it completes, stores the element at
`WR`, advances `WR` modulo `CAP`, counts it, signals success and changes nothing else anywhere. -/
def Obligations.PushStoresAtTheWriteIndex : Prop :=
  ∀ (s : State) (ch : Nat) (item : Elem) (c : Channel),
    s.chans[ch]? = some c → (Instr.push ch item).wellFormed s.widths = true →
    c.fifo.count ≠ c.params.cap →
    ∃ (t : State) (c' : Channel), exec (.push ch item) s = .next t ∧ t.chans[ch]? = some c' ∧
      c'.fifo.mem.read c.fifo.wr = some item ∧
      (∀ i, i ≠ c.fifo.wr → c'.fifo.mem.read i = c.fifo.mem.read i) ∧
      c'.fifo.wr = (c.fifo.wr + 1) % c.params.cap ∧
      c'.fifo.count = c.fifo.count + 1 ∧ c'.fifo.rd = c.fifo.rd ∧
      c'.out.pushOk = true ∧ c'.out.popped = c.out.popped ∧ c'.params = c.params ∧
      c'.fifo.empty = false ∧
      (∀ k, k ≠ ch → t.chans[k]? = s.chans[k]?) ∧
      t.num = s.num ∧ t.params = s.params ∧ t.regs = s.regs ∧ t.memEpoch = s.memEpoch ∧
      t.resetSeen = s.resetSeen ∧ t.inputs = s.inputs

/-- 42_fifo.md R151: a failed push completes and changes no state at all; only `push_ok` says so. -/
def Obligations.PushIntoFullDropsTheNewest : Prop :=
  ∀ (s : State) (ch : Nat) (item : Elem) (c : Channel),
    s.chans[ch]? = some c → c.fifo.count = c.params.cap →
    ∃ (t : State) (c' : Channel), exec (.push ch item) s = .next t ∧ t.chans[ch]? = some c' ∧
      c'.fifo = c.fifo ∧ c'.params = c.params ∧ c'.out.pushOk = false ∧
      c'.out.popped = c.out.popped ∧
      (∀ k, k ≠ ch → t.chans[k]? = s.chans[k]?) ∧
      t.num = s.num ∧ t.params = s.params ∧ t.regs = s.regs ∧ t.memEpoch = s.memEpoch ∧
      t.resetSeen = s.resetSeen ∧ t.inputs = s.inputs

/-- `FIFO.POP` on a channel that is not empty (42_fifo.md R152): it completes, gives the element at
`RD`, advances `RD` modulo `CAP`, counts it out, leaves the array alone and changes nothing else. An
element nothing has stored gives some value, which is the free value of log 9. -/
def Obligations.PopTakesTheElementAtTheReadIndex : Prop :=
  ∀ (s : State) (ch : Nat) (c : Channel), s.chans[ch]? = some c → c.fifo.count ≠ 0 →
    ∃ (t : State) (c' : Channel) (x : Elem),
      exec (.pop ch) s = .next t ∧ t.chans[ch]? = some c' ∧
      c'.out.popped = some x ∧ (∀ y, c.fifo.mem.read c.fifo.rd = some y → x = y) ∧
      (∀ i, c'.fifo.mem.read i = c.fifo.mem.read i) ∧
      c'.fifo.rd = (c.fifo.rd + 1) % c.params.cap ∧
      c'.fifo.count = c.fifo.count - 1 ∧ c'.fifo.wr = c.fifo.wr ∧
      c'.out.pushOk = c.out.pushOk ∧ c'.params = c.params ∧
      (c.fifo.count ≤ c.params.cap → c'.fifo.full c'.params = false) ∧
      (∀ k, k ≠ ch → t.chans[k]? = s.chans[k]?) ∧
      t.num = s.num ∧ t.params = s.params ∧ t.regs = s.regs ∧ t.memEpoch = s.memEpoch ∧
      t.resetSeen = s.resetSeen ∧ t.inputs = s.inputs

/-- 42_fifo.md R153: a failed pop completes, changes no state at all, and may be repeated any number of
times with the same result. -/
def Obligations.PopFromEmptyChangesNothing : Prop :=
  ∀ (s : State) (ch : Nat) (c : Channel) (n : Nat), s.chans[ch]? = some c → c.fifo.count = 0 →
    ∃ (t : State) (c' : Channel),
      runOps (List.replicate (n + 1) (.pop ch)) s = .next t ∧ t.chans[ch]? = some c' ∧
      c'.fifo = c.fifo ∧ c'.params = c.params ∧ c'.out.popped = none ∧
      c'.out.pushOk = c.out.pushOk ∧
      (∀ k, k ≠ ch → t.chans[k]? = s.chans[k]?) ∧
      t.num = s.num ∧ t.params = s.params ∧ t.regs = s.regs ∧ t.memEpoch = s.memEpoch ∧
      t.resetSeen = s.resetSeen ∧ t.inputs = s.inputs

/-- 10_state.md R38: the two flags are functions of `COUNT`; a push fails exactly when `FULL` is 1 at
its start, a pop exactly when `EMPTY` is 1; after a reset `EMPTY = 1` and `FULL = 0`. -/
def Obligations.FlagsDecideSuccess : Prop :=
  (∀ c : Channel, (c.fifo.full c.params = true ↔ c.fifo.count = c.params.cap) ∧
    (c.fifo.empty = true ↔ c.fifo.count = 0) ∧
    c.status.full = c.fifo.full c.params ∧ c.status.empty = c.fifo.empty) ∧
  (∀ (s : State) (ch : Nat) (item : Elem) (c : Channel), s.chans[ch]? = some c →
    ∃ t u, exec (.push ch item) s = .next t ∧ t.pushOk ch = !c.fifo.full c.params ∧
      exec (.pop ch) s = .next u ∧ (u.popped ch).isSome = !c.fifo.empty) ∧
  (∀ (s : State), s.configOk = true → ∀ c ∈ s.hardReset.chans,
    c.fifo.empty = true ∧ c.fifo.full c.params = false)

/-- The widths of 00_scope.md section 4 hold every value the registers take, so the status outputs show
the registers unchanged, and no narrower index would. -/
def Obligations.StatusOutputsShowTheIndices : Prop :=
  (∀ c : Channel, c.Inv →
    c.status.wrQ.toNat = c.fifo.wr ∧ c.status.rdQ.toNat = c.fifo.rd ∧
    c.status.countQ.toNat = c.fifo.count) ∧
  (∀ cap : Nat, 2 ≤ cap → 2 ^ (indexWidth cap - 1) < cap ∧ cap ≤ 2 ^ indexWidth cap) ∧
  (∀ cap : Nat, 1 ≤ cap → 2 ^ (countWidth cap - 1) < cap + 1 ∧ cap + 1 ≤ 2 ^ countWidth cap) ∧
  (∀ s : State, s.Inv →
    s.pidStatus.kpQ.toNat = s.regs.kp ∧ s.pidStatus.kiQ.toNat = s.regs.ki ∧
    s.pidStatus.kdQ.toNat = s.regs.kd ∧ s.pidStatus.spQ.toNat = s.regs.sp ∧
    s.pidStatus.integralQ.toNat = s.regs.integral ∧
    s.pidStatus.lastErrorQ.toNat = s.regs.lastError ∧
    s.pidStatus.actQ.toNat = s.regs.act ∧ s.pidStatus.pvQ.toNat = s.regs.pv)

/-! ### Channels: the queue -/

/-- The contents of 10_state.md R37 behave as a queue (42_fifo.md R154): a successful push appends, a
successful pop takes the oldest element away and returns it, and the invariants of 10_state.md R35 and
R36 are kept. -/
def Obligations.ContentsBehaveAsAQueue : Prop :=
  ∀ (c : Channel) (item : Elem) (st : Nat → Elem), c.Inv → item < 2 ^ c.params.w →
    (c.push item).Inv ∧ (c.pop st).Inv ∧ (c.pushPop st item).Inv ∧
    (c.fifo.count ≠ c.params.cap →
      (c.push item).fifo.contents c.params = c.fifo.contents c.params ++ [some item]) ∧
    (c.fifo.count ≠ 0 →
      ∃ x, (c.pop st).out.popped = some x ∧
        c.fifo.contents c.params = some x :: (c.pop st).fifo.contents c.params)

/-- 42_fifo.md R156: both ports are judged on `COUNT` at the start of the cycle, the three registers are
updated once, and the outcome is push then pop when the channel was full, pop then push when it was
empty, and either order otherwise. -/
def Obligations.PushAndPopInOneCycle : Prop :=
  ∀ (s : State) (ch : Nat) (item : Elem) (c : Channel), s.Inv → s.chans[ch]? = some c →
    item < 2 ^ c.params.w →
    (c.fifo.count ≠ 0 →
      step (s.present (pushPopCycle c.params.w ch item)) =
        andThen (exec (.push ch item) s.started) (exec (.pop ch))) ∧
    (c.fifo.count ≠ c.params.cap →
      step (s.present (pushPopCycle c.params.w ch item)) =
        andThen (exec (.pop ch) s.started) (exec (.push ch item))) ∧
    ∃ (t : State) (c' : Channel),
      step (s.present (pushPopCycle c.params.w ch item)) = .next t ∧ t.chans[ch]? = some c' ∧
      c'.out.pushOk = decide (c.fifo.count ≠ c.params.cap) ∧
      c'.out.popped = (if c.fifo.count ≠ 0 then c.fifo.mem.read c.fifo.rd else none) ∧
      c'.fifo.rd = (if c.fifo.count ≠ 0 then (c.fifo.rd + 1) % c.params.cap else c.fifo.rd) ∧
      c'.fifo.wr =
        (if c.fifo.count ≠ c.params.cap then (c.fifo.wr + 1) % c.params.cap else c.fifo.wr) ∧
      (∀ i, c'.fifo.mem.read i =
        if c.fifo.count ≠ c.params.cap ∧ i = c.fifo.wr then some item
        else c.fifo.mem.read i) ∧
      c'.fifo.count + (if c.fifo.count ≠ 0 then 1 else 0) =
        c.fifo.count + (if c.fifo.count ≠ c.params.cap then 1 else 0) ∧
      (0 < c.fifo.count → c.fifo.count < c.params.cap → c.fifo.wr ≠ c.fifo.rd) ∧
      t.regs = s.regs ∧ (∀ k, k ≠ ch → t.chans[k]? = s.started.chans[k]?)

/-- 42_fifo.md R155: of more pushes than the capacity, starting empty, the first `CAP` succeed and the
rest fail; they keep exactly the first `CAP` elements, which come out in order, and then the channel is
empty. -/
def Obligations.OverfilledChannelKeepsTheOldest : Prop :=
  ∀ (s : State) (ch : Nat) (c : Channel) (items : List Elem),
    s.chans[ch]? = some c → c.Inv → c.fifo.count = 0 → c.params.cap < items.length →
    (∀ x ∈ items, x < 2 ^ c.params.w) →
    (∀ k, k < items.length →
      ∃ t, runOps ((items.take (k + 1)).map (Instr.push ch)) s = .next t ∧
        t.pushOk ch = decide (k < c.params.cap)) ∧
    (∃ t, runOps (items.map (Instr.push ch)) s = .next t ∧
      t.contents ch = (items.take c.params.cap).map some) ∧
    (∀ k x, k < c.params.cap → items[k]? = some x →
      ∃ u, runOps (items.map (Instr.push ch) ++ List.replicate (k + 1) (.pop ch)) s = .next u ∧
        u.popped ch = some x) ∧
    (∃ u, runOps (items.map (Instr.push ch) ++ List.replicate (c.params.cap + 1) (.pop ch)) s
        = .next u ∧ u.popped ch = none)

/-- 20_memory.md R68 over clock cycles, push and pop in one cycle included: what was queued, followed by
the successful pushes in order, is the successful pops in order, followed by what is queued now. -/
def Obligations.ElementsLeaveInTheOrderPushed : Prop :=
  ∀ (k ch : Nat) (s t : State), s.Inv → s.noReset = true → runCycles k s = .next t →
    s.contents ch ++ (pushesAlong ch k s).map some =
      (popsAlong ch k s).map some ++ t.contents ch

/-- 10_state.md R37: two channel states with equal constants and equal contents answer every sequence
of operations with the same results, whatever their `RD` and whatever the stale elements hold. -/
def Obligations.ContentsDetermineEveryResult : Prop :=
  ∀ (ops : List Instr) (ch : Nat) (s s' : State) (c c' : Channel),
    (∀ i ∈ ops, blockOf i = some ch) →
    s.chans[ch]? = some c → s'.chans[ch]? = some c' → c.Inv → c'.Inv →
    c.params = c'.params → c.fifo.contents c.params = c'.fifo.contents c'.params →
    c.out = c'.out →
    ∃ t t', runOps ops s = .next t ∧ runOps ops s' = .next t' ∧
      t.pushOk ch = t'.pushOk ch ∧ t.popped ch = t'.popped ch ∧ t.contents ch = t'.contents ch

/-! ### The whole machine -/

/-- The invariant holds after a reset of any good configuration, `State.reset` being one. -/
def Obligations.ResetEstablishesTheInvariant : Prop :=
  State.reset.Inv ∧ ∀ s : State, s.configOk = true → s.hardReset.Inv

/-- Every clock cycle that has a successor keeps the invariant: every register within its `NW` bits,
`INTEGRAL` in its range and no NaN (10_state.md R27; under `F32` and every profile whose less-than is
irreflexive), indices and counts in their ranges and tied together (R35, R36), arrays canonical, every
queued element stored, and the configuration good. -/
def Obligations.EveryStepKeepsTheInvariant : Prop :=
  ∀ s t : State, s.Inv → step s = .next t → t.Inv

/-- From the invariant, a cycle whose channel ports all exist always completes, unless a tick in it
meets a NaN (60_exceptions.md section 1). -/
def Obligations.EveryCycleCompletesOrMeetsANaN : Prop :=
  ∀ s : State, s.Inv → (fetchInputs s).chans.length ≤ s.chans.length →
    (∃ t, step s = .next t) ∨
    (step s = .fault .nanTick ∧ (fetchInputs s).tick = true ∧ (fetchInputs s).rst = false)

/-- Every well-formed operation but the tick completes in every state; the tick completes or is the
fault on NaN (60_exceptions.md section 1). -/
def Obligations.OperationsNeverTrap : Prop :=
  ∀ (s : State) (i : Instr), i.wellFormed s.widths = true →
    (∃ t, exec i s = .next t) ∨ (i = .tick ∧ exec i s = .fault .nanTick)

/-- 00_scope.md R2: an operation of one block neither writes nor reads the state of another. Writing:
everything else is as before. Reading: operations on different blocks commute. -/
def Obligations.BlocksShareNoState : Prop :=
  (∀ (s t : State) (i : Instr), exec i s = .next t →
    (blockOf i = none → t.chans = s.chans) ∧
    (∀ ch, blockOf i = some ch → t.regs = s.regs ∧ ∀ k, k ≠ ch → t.chans[k]? = s.chans[k]?) ∧
    t.num = s.num ∧ t.params = s.params ∧ t.memEpoch = s.memEpoch ∧
    t.resetSeen = s.resetSeen ∧ t.inputs = s.inputs) ∧
  (∀ (s : State) (i j : Instr), blockOf i ≠ blockOf j →
    i.wellFormed s.widths = true → j.wellFormed s.widths = true →
    andThen (exec i s) (exec j) = andThen (exec j s) (exec i))

/-- 00_scope.md R11 and 10_state.md R43: no cycle changes a constant, a reset cycle included. -/
def Obligations.ConstantsNeverChange : Prop :=
  ∀ s t : State, step s = .next t →
    t.num = s.num ∧ t.params = s.params ∧ t.chans.map Channel.params = s.chans.map Channel.params

/-- 70_reset_and_hazards.md R227: the result signals are not held. `push_ok` is 1 only in a cycle
whose push port presented a push, and `pop_valid` only in one whose `pop_req` was 1. -/
def Obligations.ResultSignalsAreNotHeld : Prop :=
  ∀ (s t : State) (ch : Nat), step s = .next t →
    (t.pushOk ch = true → ∃ ci c, (fetchInputs s).chans[ch]? = some ci ∧ s.chans[ch]? = some c ∧
      ci.push.testBit c.params.w = true ∧ (fetchInputs s).rst = false) ∧
    (t.popped ch ≠ none → ∃ ci, (fetchInputs s).chans[ch]? = some ci ∧ ci.popReq = true ∧
      (fetchInputs s).rst = false)

/-! ### The surroundings (outside the block, 00_scope.md section 3) -/

/-- 30_encoding.md R102 to R105, under `F32`: what each recognised text command assembles to. A NaN and
the letters `p`, `i`, `d` in lower case are left out, since the rules do not say (log 19). That a range
with an infinite bound is not refused is the model's choice (log 19). -/
def Obligations.TextCommandsAssemble : Prop :=
  ∀ (N : NumProfile Nat) (r : TargetRange) (v : Nat), N = profileArith .f32 →
    assembleText N r .resetCmd = some .reset ∧
    (isNaN (dec32 r.vLo) = false → isNaN (dec32 r.vHi) = false → isNaN (dec32 v) = false →
      assembleText N r (.target v) =
        if flt (dec32 v) (dec32 r.vLo) = false ∧ flt (dec32 r.vHi) (dec32 v) = false
        then some (.setSp v) else none) ∧
    assembleText N r (.gain 'P' v) = some (.setKp v) ∧
    assembleText N r (.gain 'I' v) = some (.setKi v) ∧
    assembleText N r (.gain 'D' v) = some (.setKd v) ∧
    (∀ l, l ∉ ['P', 'I', 'D', 'p', 'i', 'd'] → assembleText N r (.gain l v) = none) ∧
    assembleText N r (.bare v) = assembleText N r (.target v)

/-- The sampler of 60_exceptions.md R191 and R193 seen from its channel: one push per device whose read
succeeded, in list order, and none for a device whose read failed, whatever the others do. The reads are
numbered by the device's place in the list (log 20). -/
def Obligations.SamplerPushesOnlySuccessfulReads : Prop :=
  ∀ (m : Sampler) (readBus : Nat → Device → Option Elem),
    (m.devices = [] → m.onTick readBus = []) ∧
    (∀ d rest x, m.devices = d :: rest → readBus 0 d = some x →
      m.onTick readBus = .push m.channel x ::
        ({ m with devices := rest } : Sampler).onTick (fun k => readBus (k + 1))) ∧
    (∀ d rest, m.devices = d :: rest → readBus 0 d = none →
      m.onTick readBus =
        ({ m with devices := rest } : Sampler).onTick (fun k => readBus (k + 1))) ∧
    (m.onTick readBus).length ≤ m.devices.length ∧
    (∀ i ∈ m.onTick readBus, ∃ k d x, m.devices[k]? = some d ∧ readBus k d = some x ∧
      i = .push m.channel x)
end

