-- ==== Sys2Proof/Laws/State.lean ====
section
/-! SUPPORT. One lemma per field per named update of the state, of a channel and of a cycle's inputs, and
what a good configuration says. -/

namespace Sys2Proof.Machine

/-! ### `beginCycle`, `consumeInputs`, `present` -/

@[simp] theorem State.beginCycle_num (s : State) : s.beginCycle.num = s.num := rfl
@[simp] theorem State.beginCycle_params (s : State) : s.beginCycle.params = s.params := rfl
@[simp] theorem State.beginCycle_regs (s : State) : s.beginCycle.regs = s.regs := rfl
@[simp] theorem State.beginCycle_chans (s : State) :
    s.beginCycle.chans = s.chans.map Channel.quiet := rfl
@[simp] theorem State.beginCycle_memEpoch (s : State) : s.beginCycle.memEpoch = s.memEpoch := rfl
@[simp] theorem State.beginCycle_resetSeen (s : State) : s.beginCycle.resetSeen = s.resetSeen := rfl
@[simp] theorem State.beginCycle_inputs (s : State) : s.beginCycle.inputs = s.inputs := rfl

@[simp] theorem State.consumeInputs_num (s : State) : s.consumeInputs.num = s.num := rfl
@[simp] theorem State.consumeInputs_params (s : State) : s.consumeInputs.params = s.params := rfl
@[simp] theorem State.consumeInputs_regs (s : State) : s.consumeInputs.regs = s.regs := rfl
@[simp] theorem State.consumeInputs_chans (s : State) : s.consumeInputs.chans = s.chans := rfl
@[simp] theorem State.consumeInputs_memEpoch (s : State) :
    s.consumeInputs.memEpoch = s.memEpoch := rfl
@[simp] theorem State.consumeInputs_resetSeen (s : State) :
    s.consumeInputs.resetSeen = s.resetSeen := rfl
@[simp] theorem State.consumeInputs_inputs (s : State) :
    s.consumeInputs.inputs = s.inputs.tail := rfl

@[simp] theorem State.present_num (s : State) (c : PortInputs) :
    (s.present c).num = s.num := rfl
@[simp] theorem State.present_params (s : State) (c : PortInputs) :
    (s.present c).params = s.params := rfl
@[simp] theorem State.present_regs (s : State) (c : PortInputs) :
    (s.present c).regs = s.regs := rfl
@[simp] theorem State.present_chans (s : State) (c : PortInputs) :
    (s.present c).chans = s.chans := rfl
@[simp] theorem State.present_memEpoch (s : State) (c : PortInputs) :
    (s.present c).memEpoch = s.memEpoch := rfl
@[simp] theorem State.present_resetSeen (s : State) (c : PortInputs) :
    (s.present c).resetSeen = s.resetSeen := rfl
@[simp] theorem State.present_inputs (s : State) (c : PortInputs) :
    (s.present c).inputs = c :: s.inputs.tail := rfl

@[simp] theorem State.present_consumeInputs (s : State) (c : PortInputs) :
    (s.present c).consumeInputs = s.consumeInputs := rfl
@[simp] theorem State.present_started (s : State) (c : PortInputs) :
    (s.present c).started = s.started := rfl
@[simp] theorem State.present_configOk (s : State) (c : PortInputs) :
    (s.present c).configOk = s.configOk := rfl
@[simp] theorem State.present_widths (s : State) (c : PortInputs) :
    (s.present c).widths = s.widths := rfl
@[simp] theorem fetchInputs_present (s : State) (c : PortInputs) :
    fetchInputs (s.present c) = c := rfl

@[simp] theorem State.started_num (s : State) : s.started.num = s.num := rfl
@[simp] theorem State.started_params (s : State) : s.started.params = s.params := rfl
@[simp] theorem State.started_regs (s : State) : s.started.regs = s.regs := rfl
@[simp] theorem State.started_chans (s : State) :
    s.started.chans = s.chans.map Channel.quiet := rfl
@[simp] theorem State.started_memEpoch (s : State) : s.started.memEpoch = s.memEpoch := rfl
@[simp] theorem State.started_resetSeen (s : State) : s.started.resetSeen = s.resetSeen := rfl
@[simp] theorem State.started_inputs (s : State) : s.started.inputs = s.inputs.tail := rfl

/-! ### `hardReset` -/

@[simp] theorem State.hardReset_num (s : State) : s.hardReset.num = s.num := rfl
@[simp] theorem State.hardReset_params (s : State) : s.hardReset.params = s.params := rfl
@[simp] theorem State.hardReset_regs (s : State) :
    s.hardReset.regs = PidRegs.afterReset s.arith.zero s.params := rfl
@[simp] theorem State.hardReset_chans (s : State) :
    s.hardReset.chans = s.chans.map (fun c => Channel.afterReset c.params) := rfl
@[simp] theorem State.hardReset_memEpoch (s : State) :
    s.hardReset.memEpoch = s.memEpoch + 1 := rfl
@[simp] theorem State.hardReset_resetSeen (s : State) : s.hardReset.resetSeen = true := rfl
@[simp] theorem State.hardReset_inputs (s : State) : s.hardReset.inputs = s.inputs := rfl

/-! ### Widths and operands -/

@[simp] theorem State.widths_nw (s : State) : s.widths.nw = s.num.nw := rfl
@[simp] theorem State.widths_chans (s : State) :
    s.widths.chans = s.chans.map (fun c => c.params.w) := rfl
@[simp] theorem State.started_widths (s : State) : s.started.widths = s.widths := by
  simp [State.widths, Function.comp_def, Channel.quiet]

theorem State.operand_lt (s : State) (v : Nat) : s.operand v < 2 ^ s.num.nw :=
  Nat.mod_lt _ (Nat.two_pow_pos _)
/-- An operand of `NW` bits is stored as it is (30_encoding.md R85). -/
theorem State.operand_of_lt {s : State} {v : Nat} (h : v < 2 ^ s.num.nw) : s.operand v = v :=
  Nat.mod_eq_of_lt h

/-! ### Channels -/

@[simp] theorem Channel.quiet_params (c : Channel) : c.quiet.params = c.params := rfl
@[simp] theorem Channel.quiet_fifo (c : Channel) : c.quiet.fifo = c.fifo := rfl
@[simp] theorem Channel.quiet_out (c : Channel) :
    c.quiet.out = { pushOk := false, popped := none } := rfl

@[simp] theorem Channel.afterReset_params (p : ChanParams) :
    (Channel.afterReset p).params = p := rfl
@[simp] theorem Channel.afterReset_fifo (p : ChanParams) :
    (Channel.afterReset p).fifo = { mem := [], wr := 0, rd := 0, count := 0 } := rfl
@[simp] theorem Channel.afterReset_out (p : ChanParams) :
    (Channel.afterReset p).out = { pushOk := false, popped := none } := rfl

@[simp] theorem Fifo.enqueue_mem (p : ChanParams) (x : Elem) (f : Fifo) :
    (f.enqueue p x).mem = f.mem.write f.wr (lowBits p.w x) := rfl
@[simp] theorem Fifo.enqueue_wr (p : ChanParams) (x : Elem) (f : Fifo) :
    (f.enqueue p x).wr = nextIndex p.cap f.wr := rfl
@[simp] theorem Fifo.enqueue_rd (p : ChanParams) (x : Elem) (f : Fifo) :
    (f.enqueue p x).rd = f.rd := rfl
@[simp] theorem Fifo.enqueue_count (p : ChanParams) (x : Elem) (f : Fifo) :
    (f.enqueue p x).count = f.count := rfl

@[simp] theorem Fifo.dequeue_mem (p : ChanParams) (f : Fifo) : (f.dequeue p).mem = f.mem := rfl
@[simp] theorem Fifo.dequeue_wr (p : ChanParams) (f : Fifo) : (f.dequeue p).wr = f.wr := rfl
@[simp] theorem Fifo.dequeue_rd (p : ChanParams) (f : Fifo) :
    (f.dequeue p).rd = nextIndex p.cap f.rd := rfl
@[simp] theorem Fifo.dequeue_count (p : ChanParams) (f : Fifo) :
    (f.dequeue p).count = f.count := rfl

@[simp] theorem Channel.push_params (x : Elem) (c : Channel) : (c.push x).params = c.params := by
  unfold Channel.push; split <;> rfl
@[simp] theorem Channel.pop_params (st : Nat → Elem) (c : Channel) :
    (c.pop st).params = c.params := by
  unfold Channel.pop; split <;> rfl
@[simp] theorem Channel.pushPop_params (st : Nat → Elem) (x : Elem) (c : Channel) :
    (c.pushPop st x).params = c.params := rfl

/-! ### The configuration -/

/-- Everything the constraints of 00_scope.md R10 say of the parameters of `PIDREG`. -/
theorem paramsOk_iff (N : NumProfile α) (p : PidParams α) :
    paramsOk N p = true ↔
      N.flt N.zero p.period = true ∧ numLe N p.inMin p.inMax = true ∧
      numLe N p.intMin p.intMax = true ∧ numLe N p.intMin N.zero = true ∧
      numLe N N.zero p.intMax = true ∧ numLe N N.zero p.eps = true ∧
      ∀ v ∈ p.toList, N.isFinite v = true := by
  simp [paramsOk, and_assoc]

/-- Everything a good configuration says (00_scope.md R9, R10). -/
theorem State.configOk_iff (s : State) :
    s.configOk = true ↔
      paramsOk s.arith s.params = true ∧ s.chans ≠ [] ∧ (∀ c ∈ s.chans, c.params.ok = true) ∧
      1 ≤ s.num.nw ∧ ∀ v ∈ s.params.toList, v < 2 ^ s.num.nw := by
  simp [State.configOk, and_assoc]

/-- It depends on the constants alone. -/
theorem State.configOk_congr {s t : State} (hn : t.num = s.num) (hp : t.params = s.params)
    (hc : t.chans.map Channel.params = s.chans.map Channel.params) : t.configOk = s.configOk := by
  have h1 : ∀ l : List Channel, l.all (fun c => c.params.ok) = (l.map Channel.params).all ChanParams.ok := by
    intro l; simp [List.all_map, Function.comp_def]
  have h2 : ∀ l : List Channel, l.isEmpty = (l.map Channel.params).isEmpty := by intro l; simp
  simp only [State.configOk, State.arith, hn, hp, h1, h2, hc]

@[simp] theorem State.hardReset_configOk (s : State) : s.hardReset.configOk = s.configOk :=
  State.configOk_congr rfl rfl (by simp [Function.comp_def])
@[simp] theorem State.started_configOk (s : State) : s.started.configOk = s.configOk :=
  State.configOk_congr rfl rfl (by simp [Function.comp_def])

/-! ### The flags -/

@[simp] theorem Fifo.full_iff (p : ChanParams) (f : Fifo) : f.full p = true ↔ f.count = p.cap := by
  simp [Fifo.full]
@[simp] theorem Fifo.not_full_iff (p : ChanParams) (f : Fifo) :
    f.full p = false ↔ f.count ≠ p.cap := by
  simp [Fifo.full]
@[simp] theorem Fifo.empty_iff (f : Fifo) : f.empty = true ↔ f.count = 0 := by
  simp [Fifo.empty]
@[simp] theorem Fifo.not_empty_iff (f : Fifo) : f.empty = false ↔ f.count ≠ 0 := by
  simp [Fifo.empty]

end Sys2Proof.Machine
end

