-- ==== Sys2Proof/Laws/Memory.lean ====
section
/-! SUPPORT. The laws of the backing array: read after write, and the canonical form. -/

namespace Sys2Proof.Machine.Memory

@[simp] theorem read_nil (i : Nat) : read [] i = none := rfl

/-- The array just after reset is canonical. -/
theorem wf_nil : wf [] = true := rfl

/-- Only a listed entry can be read. -/
theorem mem_of_read {m : Memory} {i : Nat} {x : Elem} (h : m.read i = some x) : (i, x) ∈ m := by
  induction m with
  | nil => cases h
  | cons a rest ih =>
    obtain ⟨j, y⟩ := a
    unfold read at h
    split at h
    · subst ‹j = i›; cases h; exact List.mem_cons_self
    · exact List.mem_cons_of_mem _ (ih h)

/-- A read at the written index gives the element written. -/
@[simp] theorem read_write_same (m : Memory) (i : Nat) (x : Elem) :
    (m.write i x).read i = some x := by
  induction m with
  | nil => simp [write, read]
  | cons a rest ih =>
    obtain ⟨j, y⟩ := a
    unfold write
    split
    · simp [read]
    · split
      · simp [read]
      · have : j ≠ i := fun h => ‹¬ i = j› h.symm
        simp [read, this, ih]

/-- A write leaves every other index alone. -/
theorem read_write_other (m : Memory) (i k : Nat) (x : Elem) (h : k ≠ i) :
    (m.write i x).read k = m.read k := by
  induction m with
  | nil => simp [write, read, Ne.symm h]
  | cons a rest ih =>
    obtain ⟨j, y⟩ := a
    unfold write
    split
    · simp [read, Ne.symm h]
    · split
      · subst ‹i = j›; simp [read, Ne.symm h]
      · simp [read, ih]

/-- Both cases of a read after a write. -/
theorem read_write (m : Memory) (i k : Nat) (x : Elem) :
    (m.write i x).read k = if k = i then some x else m.read k := by
  split
  · subst ‹k = i›; exact read_write_same m k x
  · exact read_write_other m i k x ‹_›

/-- The first index of a written array is the written one or the old first one. -/
theorem write_cons_head (j i : Nat) (y x : Elem) (rest : Memory) :
    ∃ y' rest', write ((j, y) :: rest) i x = (min i j, y') :: rest' := by
  unfold write
  split
  · exact ⟨x, (j, y) :: rest, by rw [Nat.min_eq_left (Nat.le_of_lt ‹i < j›)]⟩
  · split
    · exact ⟨x, rest, by subst ‹i = j›; rw [Nat.min_self]⟩
    · exact ⟨y, write rest i x, by rw [Nat.min_eq_right (by omega)]⟩

/-- A write keeps the canonical form. -/
theorem write_wf (m : Memory) (i : Nat) (x : Elem) (h : m.wf = true) : (m.write i x).wf = true := by
  induction m with
  | nil => rfl
  | cons a rest ih =>
    obtain ⟨j, y⟩ := a
    have hrest : wf rest = true := by
      cases rest with
      | nil => rfl
      | cons b r => simp only [wf, Bool.and_eq_true] at h; exact h.2
    unfold write
    split
    · simp [wf, ‹i < j›, h]
    · split
      · subst ‹i = j›
        cases rest with
        | nil => rfl
        | cons b r => simpa [wf] using h
      · have hji : j < i := by omega
        cases rest with
        | nil => simp [write, wf, hji]
        | cons b r =>
          obtain ⟨k, z⟩ := b
          have hjk : j < k := by simp only [wf, Bool.and_eq_true, decide_eq_true_eq] at h; exact h.1
          obtain ⟨y', r', hw⟩ := write_cons_head k i z x r
          have ih' := ih hrest
          rw [hw] at ih' ⊢
          simp [wf, ih', Nat.lt_min.mpr ⟨hji, hjk⟩]

end Sys2Proof.Machine.Memory
end

