-- ==== Sys2Proof/Laws/Channel.lean ====
section
/-! SUPPORT. What each shared operation on a channel, and on one channel of a state, can do. -/

namespace Sys2Proof.Machine

/-! ### Outcomes -/

@[simp] theorem andThen_next (s : State) (f : State → Result) : andThen (.next s) f = f s := rfl
@[simp] theorem andThen_fault (r : Fault) (f : State → Result) :
    andThen (.fault r) f = .fault r := rfl
@[simp] theorem andThen_refused (r : Refusal) (f : State → Result) :
    andThen (.refused r) f = .refused r := rfl

/-- A sequence answers a next state exactly through a next state of its first half. -/
theorem andThen_eq_next {o : Result} {f : State → Result} {t : State} :
    andThen o f = .next t ↔ ∃ s, o = .next s ∧ f s = .next t := by
  cases o <;> simp [andThen]

theorem andThen_assoc (o : Result) (f g : State → Result) :
    andThen (andThen o f) g = andThen o (fun s => andThen (f s) g) := by
  cases o <;> rfl

/-! ### One channel of a state -/

/-- On an instance that exists, an operation answers a next state in which that instance alone has
changed. -/
theorem onChannel_of_some {ch : Nat} {s : State} {c : Channel} (f : Channel → Channel)
    (h : s.chans[ch]? = some c) :
    onChannel ch s f = .next { s with chans := s.chans.set ch (f c) } := by
  simp [onChannel, h]

/-- On an instance that does not exist it is refused. -/
theorem onChannel_of_none {ch : Nat} {s : State} (f : Channel → Channel)
    (h : s.chans[ch]? = none) : onChannel ch s f = .refused (.noSuchChannel ch) := by
  simp [onChannel, h]

/-- Everything an operation on a channel can do, if it answers a next state. -/
theorem onChannel_next {ch : Nat} {s t : State} {f : Channel → Channel}
    (h : onChannel ch s f = .next t) :
    ∃ c, s.chans[ch]? = some c ∧ t = { s with chans := s.chans.set ch (f c) } := by
  cases hc : s.chans[ch]? with
  | none => rw [onChannel_of_none f hc] at h; cases h
  | some c =>
    rw [onChannel_of_some f hc] at h
    exact ⟨c, rfl, (Host.Outcome.next.inj h).symm⟩

/-- The instance operated on, in the list it is put back into. -/
theorem getElem?_set_self_of_some {l : List Channel} {ch : Nat} {c : Channel} (d : Channel)
    (h : l[ch]? = some c) : (l.set ch d)[ch]? = some d := by
  obtain ⟨hlt, -⟩ := List.getElem?_eq_some_iff.mp h
  simp [hlt]

/-! ### Push -/

/-- A push into a full channel changes the result signal only (42_fifo.md R151). -/
theorem Channel.push_of_full {c : Channel} (x : Elem) (h : c.fifo.count = c.params.cap) :
    c.push x = { c with out := { c.out with pushOk := false } } := by
  simp [Channel.push, h]

/-- A push into any other channel (R150). -/
theorem Channel.push_of_room {c : Channel} (x : Elem) (h : c.fifo.count ≠ c.params.cap) :
    c.push x =
      { c with
        fifo := { mem := c.fifo.mem.write c.fifo.wr (lowBits c.params.w x),
                  wr := nextIndex c.params.cap c.fifo.wr,
                  rd := c.fifo.rd,
                  count := c.fifo.count + 1 },
        out := { c.out with pushOk := true } } := by
  simp [Channel.push, h, Fifo.enqueue]

/-! ### Pop -/

/-- A pop from an empty channel changes the result signal only (42_fifo.md R153). -/
theorem Channel.pop_of_empty {c : Channel} (st : Nat → Elem) (h : c.fifo.count = 0) :
    c.pop st = { c with out := { c.out with popped := none } } := by
  simp [Channel.pop, h]

/-- A pop from any other channel (R152). -/
theorem Channel.pop_of_stored {c : Channel} (st : Nat → Elem) (h : c.fifo.count ≠ 0) :
    c.pop st =
      { c with
        fifo := { mem := c.fifo.mem, wr := c.fifo.wr,
                  rd := nextIndex c.params.cap c.fifo.rd,
                  count := c.fifo.count - 1 },
        out := { c.out with popped := some (c.fifo.head c.params st) } } := by
  simp [Channel.pop, h, Fifo.dequeue]

/-- The popped element, where one has been stored. -/
theorem Fifo.head_of_stored {p : ChanParams} {f : Fifo} {x : Elem} (st : Nat → Elem)
    (h : f.mem.read f.rd = some x) : f.head p st = x := by
  simp [Fifo.head, h]

/-! ### Push and pop in one cycle (42_fifo.md R156) -/

/-- Both succeed. -/
theorem Channel.pushPop_of_both {c : Channel} (st : Nat → Elem) (x : Elem)
    (hf : c.fifo.count ≠ c.params.cap) (he : c.fifo.count ≠ 0) :
    c.pushPop st x =
      { c with
        fifo := { mem := c.fifo.mem.write c.fifo.wr (lowBits c.params.w x),
                  wr := nextIndex c.params.cap c.fifo.wr,
                  rd := nextIndex c.params.cap c.fifo.rd,
                  count := c.fifo.count },
        out := { pushOk := true, popped := some (c.fifo.head c.params st) } } := by
  simp [Channel.pushPop, hf, he, Fifo.enqueue, Fifo.dequeue]

/-- The channel is full and not empty: only the pop succeeds. -/
theorem Channel.pushPop_of_full {c : Channel} (st : Nat → Elem) (x : Elem)
    (hf : c.fifo.count = c.params.cap) (he : c.fifo.count ≠ 0) :
    c.pushPop st x =
      { c with
        fifo := { mem := c.fifo.mem, wr := c.fifo.wr,
                  rd := nextIndex c.params.cap c.fifo.rd,
                  count := c.fifo.count - 1 },
        out := { pushOk := false, popped := some (c.fifo.head c.params st) } } := by
  have hd : c.fifo.full c.params = true := (Fifo.full_iff _ _).mpr hf
  have hp : c.fifo.empty = false := (Fifo.not_empty_iff _).mpr he
  simp [Channel.pushPop, hd, hp, Fifo.dequeue]

/-- The channel is empty and not full: only the push succeeds. -/
theorem Channel.pushPop_of_empty {c : Channel} (st : Nat → Elem) (x : Elem)
    (hf : c.fifo.count ≠ c.params.cap) (he : c.fifo.count = 0) :
    c.pushPop st x =
      { c with
        fifo := { mem := c.fifo.mem.write c.fifo.wr (lowBits c.params.w x),
                  wr := nextIndex c.params.cap c.fifo.wr,
                  rd := c.fifo.rd,
                  count := c.fifo.count + 1 },
        out := { pushOk := true, popped := none } } := by
  have hd : c.fifo.full c.params = false := (Fifo.not_full_iff _ _).mpr hf
  have hp : c.fifo.empty = true := (Fifo.empty_iff _).mpr he
  simp [Channel.pushPop, hd, hp, Fifo.enqueue]

/-! ### Arrays stay canonical -/

/-- No operation on a channel leaves its array out of canonical form. -/
theorem Channel.push_canonical {c : Channel} (x : Elem) (h : c.fifo.mem.wf = true) :
    (c.push x).fifo.mem.wf = true := by
  by_cases hf : c.fifo.count = c.params.cap
  · rw [Channel.push_of_full x hf]; exact h
  · rw [Channel.push_of_room x hf]; exact Memory.write_wf _ _ _ h

theorem Channel.pop_mem (c : Channel) (st : Nat → Elem) : (c.pop st).fifo.mem = c.fifo.mem := by
  by_cases he : c.fifo.count = 0
  · rw [Channel.pop_of_empty st he]
  · rw [Channel.pop_of_stored st he]

theorem Channel.pushPop_canonical {c : Channel} (st : Nat → Elem) (x : Elem)
    (h : c.fifo.mem.wf = true) : (c.pushPop st x).fifo.mem.wf = true := by
  unfold Channel.pushPop
  by_cases hf : c.fifo.full c.params = true <;> by_cases he : c.fifo.empty = true <;>
    simp [hf, he, h, Memory.write_wf]

end Sys2Proof.Machine
end

