-- ==== Sys2Proof/Laws/Decode.lean ====
section
/-! SUPPORT. The fields of the words on the ports (30_encoding.md R83, R87). -/

namespace Sys2Proof

/-! ### Command words -/

/-- The field `op` as a number. -/
theorem cmdOp_toNat (nw : Nat) (c : Nat) : (cmdOp nw c).toNat = c / 2 ^ nw % 2 ^ 4 := by
  simp [cmdOp]

theorem cmdData_lt (nw : Nat) (c : Nat) : cmdData nw c < 2 ^ nw :=
  Nat.mod_lt _ (Nat.two_pow_pos nw)

/-- The field `op` of a word with that field. -/
@[simp] theorem cmdOp_cmdWord {nw : Nat} (op : BitVec 4) {d : Nat} (h : d < 2 ^ nw) :
    cmdOp nw (cmdWord nw op d) = op := by
  apply BitVec.eq_of_toNat_eq
  have := op.isLt
  rw [cmdOp_toNat, cmdWord, Nat.mul_comm, Nat.mul_add_div (Nat.two_pow_pos nw), Nat.div_eq_of_lt h,
    Nat.add_zero, Nat.mod_eq_of_lt this]

/-- The field `data` of a word with that field. -/
@[simp] theorem cmdData_cmdWord {nw : Nat} (op : BitVec 4) {d : Nat} (h : d < 2 ^ nw) :
    cmdData nw (cmdWord nw op d) = d := by
  rw [cmdData, cmdWord, Nat.mul_comm, Nat.mul_add_mod, Nat.mod_eq_of_lt h]

/-- A word of `NW + 4` bits is its two fields. -/
theorem cmdWord_fields {nw : Nat} {c : Nat} (h : c < 2 ^ (nw + 4)) :
    cmdWord nw (cmdOp nw c) (cmdData nw c) = c := by
  have h' : c / 2 ^ nw < 2 ^ 4 := Nat.div_lt_of_lt_mul (by rwa [Nat.pow_add] at h)
  rw [cmdWord, cmdOp_toNat, Nat.mod_eq_of_lt h', cmdData, Nat.mul_comm, Nat.div_add_mod]

/-- Everything the command decoder answers: an operation, for a code below 8, or the reserved word. -/
theorem decodeCmd_cases (nw : Nat) (c : Nat) :
    ((cmdOp nw c).toNat < 8 ∧ ∃ i, decodeCmd nw c = .op i ∧ i.isHostCommand = true) ∨
    (8 ≤ (cmdOp nw c).toNat ∧ decodeCmd nw c = .reserved (cmdOp nw c) (cmdData nw c)) := by
  have hlt := (cmdOp nw c).isLt
  unfold decodeCmd
  generalize h : (cmdOp nw c).toNat = n at hlt ⊢
  match n with
  | 0 | 1 | 2 | 3 | 4 | 5 | 6 | 7 => exact .inl ⟨by omega, _, rfl, rfl⟩
  | k + 8 => exact .inr ⟨by omega, rfl⟩

/-- A reserved code. -/
theorem decodeCmd_of_reserved {nw : Nat} {c : Nat} (h : 8 ≤ c / 2 ^ nw % 2 ^ 4) :
    decodeCmd nw c = .reserved (cmdOp nw c) (cmdData nw c) := by
  rcases decodeCmd_cases nw c with ⟨hlt, -⟩ | ⟨-, h'⟩
  · rw [cmdOp_toNat] at hlt; exact absurd hlt (Nat.not_lt.mpr h)
  · exact h'

/-! ### Push words -/

theorem pushWord_testBit {w : Nat} {x : Elem} (h : x < 2 ^ w) : (pushWord w x).testBit w = true := by
  simp [pushWord, Nat.testBit_two_pow_add_eq, Nat.testBit_lt_two_pow h]

theorem pushWord_mod {w : Nat} {x : Elem} (h : x < 2 ^ w) : pushWord w x % 2 ^ w = x := by
  simp [pushWord, Nat.mod_eq_of_lt h]

/-- The push word of an element is read back as a push of it. -/
theorem decodePush_pushWord {w : Nat} {x : Elem} (ch : Nat) (h : x < 2 ^ w) :
    decodePush w ch (pushWord w x) = .op (.push ch x) := by
  simp [decodePush, pushWord_testBit h, pushWord_mod h]

/-- Everything a push port can present. -/
theorem decodePush_cases (w ch word : Nat) :
    (word.testBit w = true ∧ decodePush w ch word = .op (.push ch (word % 2 ^ w))) ∨
    (word.testBit w = false ∧ decodePush w ch word = .idle) := by
  unfold decodePush; cases word.testBit w <;> simp

end Sys2Proof
end

