-- ==== Sys2Proof/Laws/Numeric.lean ====
section
/-! SUPPORT. The order of binary32 values, the clamp, and NaN through the operations. -/

namespace Sys2Proof.Machine

/-! ### The profile of an instance, on encodings -/

@[simp] theorem dec32_toNat (x : Num32) : dec32 x.toNat = x := by simp [dec32]
theorem dec32_inj {x y : Nat} (hx : x < 2 ^ 32) (hy : y < 2 ^ 32) : dec32 x = dec32 y ↔ x = y := by
  constructor
  · intro h
    have := congrArg BitVec.toNat h
    simp [dec32] at this; omega
  · rintro rfl; rfl

@[simp] theorem arith_f32_zero : (profileArith .f32).zero = 0 := rfl
@[simp] theorem arith_f32_fadd (a b : Nat) :
    (profileArith .f32).fadd a b = (fadd (dec32 a) (dec32 b)).toNat := rfl
@[simp] theorem arith_f32_fsub (a b : Nat) :
    (profileArith .f32).fsub a b = (fsub (dec32 a) (dec32 b)).toNat := rfl
@[simp] theorem arith_f32_fmul (a b : Nat) :
    (profileArith .f32).fmul a b = (fmul (dec32 a) (dec32 b)).toNat := rfl
@[simp] theorem arith_f32_fdiv (a b : Nat) :
    (profileArith .f32).fdiv a b = (fdiv (dec32 a) (dec32 b)).toNat := rfl
@[simp] theorem arith_f32_fabs (a : Nat) :
    (profileArith .f32).fabs a = (fabs (dec32 a)).toNat := rfl
@[simp] theorem arith_f32_flt (a b : Nat) :
    (profileArith .f32).flt a b = flt (dec32 a) (dec32 b) := rfl
@[simp] theorem arith_f32_isNaN (a : Nat) : (profileArith .f32).isNaN a = isNaN (dec32 a) := rfl
@[simp] theorem arith_f32_isFinite (a : Nat) :
    (profileArith .f32).isFinite a = isFinite (dec32 a) := rfl

@[simp] theorem arith_other_isNaN (nw : Nat) (a : Nat) :
    (profileArith (.other nw)).isNaN a = false := rfl
@[simp] theorem arith_other_isFinite (nw : Nat) (a : Nat) :
    (profileArith (.other nw)).isFinite a = true := rfl

/-- Every result of a profile's arithmetic is an encoding of `NW` bits. -/
theorem profileArith_lt (P : Profile) (a b : Nat) :
    (profileArith P).zero < 2 ^ P.nw ∧ (profileArith P).fadd a b < 2 ^ P.nw ∧
      (profileArith P).fsub a b < 2 ^ P.nw ∧ (profileArith P).fmul a b < 2 ^ P.nw ∧
      (profileArith P).fdiv a b < 2 ^ P.nw ∧ (profileArith P).fabs a < 2 ^ P.nw := by
  cases P <;> exact ⟨BitVec.isLt _, BitVec.isLt _, BitVec.isLt _, BitVec.isLt _, BitVec.isLt _, BitVec.isLt _⟩

/-! ### The comparison -/

/-- The number `flt` compares: the signed `magBits`. -/
def fltKey (x : Num32) : Int := if signOf x then -(magBits x : Int) else (magBits x : Int)

/-- Everything `flt` says. -/
theorem flt_iff (a b : Num32) :
    flt a b = true ↔ isNaN a = false ∧ isNaN b = false ∧ fltKey a < fltKey b := by
  simp [flt, fltKey, and_assoc]

theorem flt_irrefl (a : Num32) : flt a a = false := by
  rw [Bool.eq_false_iff, Ne, flt_iff]; omega

/-- The less-than of `F32` on encodings puts no value below itself, so `State.Ordered` gives this under
every profile it names. -/
theorem State.Ordered.irrefl {s : State} (h : s.Ordered) (x : Nat) : s.arith.flt x x = false := by
  rcases h with h | h
  · show (profileArith s.num).flt x x = false
    rw [h]; exact flt_irrefl _
  · exact h x

theorem flt_asymm {a b : Num32} (h : flt a b = true) : flt b a = false := by
  rw [flt_iff] at h
  rw [Bool.eq_false_iff, Ne, flt_iff]; omega

theorem flt_trans {a b c : Num32} (h : flt a b = true) (h' : flt b c = true) :
    flt a c = true := by
  rw [flt_iff] at *; exact ⟨h.1, h'.2.1, by omega⟩

/-- Less than an upper value and not above a lower one. -/
theorem flt_of_flt_of_not_flt {a b c : Num32} (h : flt a b = true) (hc : isNaN c = false)
    (h' : flt c b = false) : flt a c = true := by
  rw [Bool.eq_false_iff, Ne, flt_iff] at h'
  rw [flt_iff] at h ⊢
  refine ⟨h.1, hc, ?_⟩
  by_contra hlt
  exact h' ⟨hc, h.2.1, by omega⟩

theorem flt_nan_left {a : Num32} (b : Num32) (h : isNaN a = true) : flt a b = false := by
  rw [Bool.eq_false_iff, Ne, flt_iff]; simp [h]

theorem flt_nan_right (a : Num32) {b : Num32} (h : isNaN b = true) : flt a b = false := by
  rw [Bool.eq_false_iff, Ne, flt_iff]; simp [h]

/-- `a <= b` under `F32`, as the constraints use it. -/
theorem numLe_f32_iff (a b : Num32) :
    numLe f32 a b = true ↔ isNaN a = false ∧ isNaN b = false ∧ flt b a = false := by
  simp [numLe, f32, and_assoc]

theorem isNaN_of_isFinite {a : Num32} (h : isFinite a = true) : isNaN a = false := by
  simp only [isFinite, isNaN, decide_eq_true_eq, decide_eq_false_iff_not] at *; omega

/-! ### The clamp (00_scope.md R15) -/

/-- Everything a clamp can answer, under any profile. -/
theorem clamp_cases (N : NumProfile α) (v lo hi : α) :
    (clamp N v lo hi = lo ∧ N.flt v lo = true) ∨
    (clamp N v lo hi = hi ∧ N.flt v lo = false ∧ N.flt hi v = true) ∨
    (clamp N v lo hi = v ∧ N.flt v lo = false ∧ N.flt hi v = false) := by
  unfold clamp
  by_cases h1 : N.flt v lo = true
  · simp [h1]
  · by_cases h2 : N.flt hi v = true <;> simp [h1, h2]

/-- A clamp answers one of its three arguments. -/
theorem clamp_mem (N : NumProfile α) (v lo hi : α) :
    clamp N v lo hi = lo ∨ clamp N v lo hi = hi ∨ clamp N v lo hi = v := by
  rcases clamp_cases N v lo hi with ⟨h, -⟩ | ⟨h, -⟩ | ⟨h, -⟩ <;> simp [h]

/-- Clamping encodings is clamping their values. -/
@[simp] theorem dec32_clamp (v lo hi : Nat) :
    dec32 (clamp (profileArith .f32) v lo hi) = clamp f32 (dec32 v) (dec32 lo) (dec32 hi) := by
  unfold clamp; rw [apply_ite dec32, apply_ite dec32]; rfl

/-- A NaN passes through a clamp. -/
theorem clamp_nan {v : Num32} (lo hi : Num32) (h : isNaN v = true) : clamp f32 v lo hi = v := by
  simp [clamp, f32, flt_nan_left lo h, flt_nan_right hi h]

/-- A clamp between ordered bounds answers a value between them, under every profile whose less-than puts
neither bound below itself. -/
theorem clamp_between_of_irrefl {N : NumProfile α} {lo hi : α} (v : α)
    (hirr : ∀ x, N.flt x x = false) (hle : N.flt hi lo = false) :
    N.flt (clamp N v lo hi) lo = false ∧ N.flt hi (clamp N v lo hi) = false := by
  rcases clamp_cases N v lo hi with ⟨e, -⟩ | ⟨e, -, -⟩ | ⟨e, h1, h2⟩ <;> rw [e]
  · exact ⟨hirr lo, hle⟩
  · exact ⟨hle, hirr hi⟩
  · exact ⟨h1, h2⟩

/-- Under `F32`. -/
theorem clamp_between {lo hi : Num32} (v : Num32) (h : numLe f32 lo hi = true) :
    flt (clamp f32 v lo hi) lo = false ∧ flt hi (clamp f32 v lo hi) = false :=
  clamp_between_of_irrefl (N := f32) v flt_irrefl ((numLe_f32_iff lo hi).mp h).2.2

/-- `a <= b` says that `b` is not less than `a`. -/
theorem not_flt_of_numLe {N : NumProfile α} {a b : α} (h : numLe N a b = true) :
    N.flt b a = false := by
  simp only [numLe, Bool.and_eq_true, Bool.not_eq_true'] at h; exact h.2

/-! ### NaN through the operations -/

@[simp] theorem isNaN_quietNaN : isNaN quietNaN = true := by decide

theorem fadd_nan {a b : Num32} (h : isNaN a = true ∨ isNaN b = true) : fadd a b = quietNaN := by
  rcases h with h | h <;> simp [fadd, h]

theorem fmul_nan {a b : Num32} (h : isNaN a = true ∨ isNaN b = true) : fmul a b = quietNaN := by
  rcases h with h | h <;> simp [fmul, h]

theorem fdiv_nan {a b : Num32} (h : isNaN a = true ∨ isNaN b = true) : fdiv a b = quietNaN := by
  rcases h with h | h <;> simp [fdiv, h]

/-! ### Negation and magnitude -/

theorem magBits_fneg (x : Num32) : magBits (fneg x) = magBits x := by
  have h : (fneg x).setWidth 31 = x.setWidth 31 := by unfold fneg; ext i; simp
  have h' := congrArg BitVec.toNat h
  simpa [magBits] using h'

theorem signOf_fneg (x : Num32) : signOf (fneg x) = !signOf x := by
  simp [signOf, fneg]

theorem isNaN_fneg (x : Num32) : isNaN (fneg x) = isNaN x := by simp [isNaN, magBits_fneg]

theorem units_fneg (x : Num32) : units (fneg x) = -units x := by
  unfold units; rw [signOf_fneg, magBits_fneg]; cases signOf x <;> simp

theorem fsub_nan {a b : Num32} (h : isNaN a = true ∨ isNaN b = true) : fsub a b = quietNaN :=
  fadd_nan (h.imp_right fun hb => (isNaN_fneg b).trans hb)

end Sys2Proof.Machine
end

