-- ==== Sys2Proof/Laws/Tick.lean ====
section
/-! SUPPORT. What a tick can do. -/

namespace Sys2Proof.Machine

/-- A gated tick writes nothing (40_pid_tick.md R111). -/
theorem pidTick_of_gated {N : NumProfile α} {p : PidParams α} {r : PidRegs α}
    (h : tickGated N p r = true) : pidTick N p r = some r := by
  simp [pidTick, h]

/-- A NaN among the values of an ungated tick is the fault (R122). -/
theorem pidTick_of_nan {N : NumProfile α} {p : PidParams α} {r : PidRegs α}
    (h : tickGated N p r = false) (hn : (tickLocals N p r).hasNaN N = true) :
    pidTick N p r = none := by
  simp [pidTick, h, hn]

/-- Any other tick writes its three registers (R117). -/
theorem pidTick_of_run {N : NumProfile α} {p : PidParams α} {r : PidRegs α}
    (h : tickGated N p r = false) (hn : (tickLocals N p r).hasNaN N = false) :
    pidTick N p r =
      some { r with integral := (tickLocals N p r).i1, lastError := (tickLocals N p r).e,
                    act := (tickLocals N p r).out } := by
  simp [pidTick, h, hn]

/-- Everything a tick can do to the registers. -/
theorem pidTick_cases (N : NumProfile α) (p : PidParams α) (r : PidRegs α) :
    (tickGated N p r = true ∧ pidTick N p r = some r) ∨
    (tickGated N p r = false ∧ (tickLocals N p r).hasNaN N = true ∧ pidTick N p r = none) ∨
    (tickGated N p r = false ∧ (tickLocals N p r).hasNaN N = false ∧
      pidTick N p r =
        some { r with integral := (tickLocals N p r).i1, lastError := (tickLocals N p r).e,
                      act := (tickLocals N p r).out }) := by
  cases hg : tickGated N p r with
  | true => exact .inl ⟨rfl, pidTick_of_gated hg⟩
  | false =>
    cases hn : (tickLocals N p r).hasNaN N with
    | true => exact .inr (.inl ⟨rfl, rfl, pidTick_of_nan hg hn⟩)
    | false => exact .inr (.inr ⟨rfl, rfl, pidTick_of_run hg hn⟩)

/-- Everything `PID.TICK` can do, if it answers a next state. -/
theorem execTick_next {s t : State} (h : execTick s = .next t) :
    ∃ r, pidTick s.arith s.params s.regs = some r ∧ t = { s with regs := r } := by
  unfold execTick at h
  split at h
  · exact ⟨_, ‹_›, (Host.Outcome.next.inj h).symm⟩
  · cases h

/-- The values behind the encodings of a tick's local values. -/
def TickLocals.dec32 (l : TickLocals Nat) : TickLocals Num32 :=
  { a := Machine.dec32 l.a, e := Machine.dec32 l.e, i1 := Machine.dec32 l.i1,
    d := Machine.dec32 l.d, out := Machine.dec32 l.out }

/-- The values behind the encodings of the parameters. -/
def PidParams.dec32 (p : PidParams Nat) : PidParams Num32 :=
  { period := Machine.dec32 p.period, inMin := Machine.dec32 p.inMin, inMax := Machine.dec32 p.inMax,
    intMin := Machine.dec32 p.intMin, intMax := Machine.dec32 p.intMax, eps := Machine.dec32 p.eps,
    sp0 := Machine.dec32 p.sp0, kp0 := Machine.dec32 p.kp0, ki0 := Machine.dec32 p.ki0,
    kd0 := Machine.dec32 p.kd0, act0 := Machine.dec32 p.act0, pv0 := Machine.dec32 p.pv0 }

/-- The values behind the encodings of the registers. -/
def PidRegs.dec32 (r : PidRegs Nat) : PidRegs Num32 :=
  { kp := Machine.dec32 r.kp, ki := Machine.dec32 r.ki, kd := Machine.dec32 r.kd, sp := Machine.dec32 r.sp,
    integral := Machine.dec32 r.integral, lastError := Machine.dec32 r.lastError,
    act := Machine.dec32 r.act, pv := Machine.dec32 r.pv }

/-- Under profile `F32` a tick on encodings gates as the tick on their values does. -/
theorem tickGated_f32 (p : PidParams Nat) (r : PidRegs Nat) :
    tickGated (profileArith .f32) p r = tickGated f32 (PidParams.dec32 p) r.dec32 := by
  simp [tickGated, f32, PidParams.dec32, PidRegs.dec32]

/-- And it computes the values that tick computes. -/
theorem tickLocals_f32 (p : PidParams Nat) (r : PidRegs Nat) :
    (tickLocals (profileArith .f32) p r).dec32 = tickLocals f32 (PidParams.dec32 p) r.dec32 := by
  simp [TickLocals.dec32, tickLocals, tickInput, tickError, tickIntegral, tickDerivative, tickOutput,
    f32, PidParams.dec32, PidRegs.dec32]

/-- None of the values of a tick without a fault is NaN. -/
theorem TickLocals.not_nan {l : TickLocals Nat} (h : l.hasNaN (profileArith .f32) = false) :
    isNaN (Machine.dec32 l.a) = false ∧ isNaN (Machine.dec32 l.e) = false ∧
      isNaN (Machine.dec32 l.i1) = false ∧ isNaN (Machine.dec32 l.d) = false ∧
      isNaN (Machine.dec32 l.out) = false := by
  simpa [TickLocals.hasNaN, and_assoc] using h

/-- Under any other profile no tick faults (40_pid_tick.md R122 is about `F32`). -/
theorem TickLocals.hasNaN_other (nw : Nat) (l : TickLocals Nat) :
    l.hasNaN (profileArith (.other nw)) = false := rfl

/-- Every value a tick computes is an encoding of `NW` bits, if those it starts from are. -/
theorem tickLocals_lt {P : Profile} {p : PidParams Nat} {r : PidRegs Nat}
    (hp : ∀ v ∈ p.toList, v < 2 ^ P.nw) (hr : r.act < 2 ^ P.nw) :
    let l := tickLocals (profileArith P) p r
    l.a < 2 ^ P.nw ∧ l.e < 2 ^ P.nw ∧ l.i1 < 2 ^ P.nw ∧ l.d < 2 ^ P.nw ∧ l.out < 2 ^ P.nw := by
  have hc : ∀ v lo hi, v < 2 ^ P.nw → lo < 2 ^ P.nw → hi < 2 ^ P.nw →
      clamp (profileArith P) v lo hi < 2 ^ P.nw := by
    intro v lo hi hv hl hh
    rcases clamp_mem (profileArith P) v lo hi with h | h | h <;> rw [h] <;> assumption
  simp only [PidParams.toList, List.forall_mem_cons] at hp
  refine ⟨hc _ _ _ hr (by tauto) (by tauto), (profileArith_lt P _ _).2.2.1,
    hc _ _ _ (profileArith_lt P _ _).2.1 (by tauto) (by tauto), (profileArith_lt P _ _).2.2.2.2.1,
    hc _ _ _ (profileArith_lt P _ _).2.1 (by tauto) (by tauto)⟩

end Sys2Proof.Machine
end

