-- ==== Sys2Proof/Laws/Cycle.lean ====
section
/-! SUPPORT. What a clock cycle can do, and what it leaves alone when nothing is presented. -/

namespace Sys2Proof.Machine

/-- A configuration that breaks 00_scope.md R10 is refused. -/
theorem step_of_bad_config {s : State} (h : s.configOk = false) :
    step s = .refused .badConfiguration := by
  simp [step, clockCycle, h]

/-- Any other runs one cycle. -/
theorem step_of_config {s : State} (h : s.configOk = true) :
    step s = runCycle (fetchInputs s) s.consumeInputs := by
  simp [step, clockCycle, h]

/-- A reset cycle. -/
theorem runCycle_of_rst {c : PortInputs} {s : State} (hl : c.chans.length ≤ s.chans.length)
    (h : c.rst = true) : runCycle c s = .next s.hardReset := by
  simp [runCycle, h, Nat.not_lt.mpr hl]

/-- A cycle of operations after the first reset. -/
theorem runCycle_of_ops {c : PortInputs} {s : State} (hl : c.chans.length ≤ s.chans.length)
    (h : c.rst = false) (hr : s.resetSeen = true) : runCycle c s = operationsCycle c s := by
  simp [runCycle, h, hr, Nat.not_lt.mpr hl]

/-- Everything a step can do, if it answers a next state. -/
theorem step_next {s t : State} (h : step s = .next t) :
    s.configOk = true ∧ (fetchInputs s).chans.length ≤ s.chans.length ∧
      (((fetchInputs s).rst = true ∧ t = s.consumeInputs.hardReset) ∨
       ((fetchInputs s).rst = false ∧
        (s.resetSeen = true ∨ (fetchInputs s).presents s.widths = false) ∧
        operationsCycle (fetchInputs s) s.consumeInputs = .next t)) := by
  cases hc : s.configOk with
  | false => rw [step_of_bad_config hc] at h; cases h
  | true =>
    rw [step_of_config hc] at h
    unfold runCycle at h
    split at h
    · cases h
    · rename_i hl
      refine ⟨rfl, Nat.not_lt.mp hl, ?_⟩
      split at h
      · exact .inl ⟨‹_›, (Host.Outcome.next.inj h).symm⟩
      · rename_i hr
        split at h
        · cases h
        · rename_i hp
          refine .inr ⟨by simpa using hr, ?_, h⟩
          have hw : s.consumeInputs.widths = s.widths := rfl
          rw [hw] at hp
          simp only [State.consumeInputs_resetSeen, Bool.and_eq_true, Bool.not_eq_true',
            not_and, Bool.not_eq_true] at hp
          cases hs : s.resetSeen with
          | true => exact .inl rfl
          | false => exact .inr (hp hs)

@[simp] theorem runDecoded_op (i : Instr) (s : State) : runDecoded (.op i) s = exec i s := rfl
@[simp] theorem runDecoded_idle (s : State) : runDecoded .idle s = .next s := rfl
@[simp] theorem runDecoded_reserved (code : BitVec 4) (data : Nat) (s : State) :
    runDecoded (.reserved code data) s = .next s := rfl

@[simp] theorem cmdPort_idle {nw : Nat} {c : PortInputs} (h : c.cmdValid = false) : cmdPort nw c = .idle := by
  simp [cmdPort, h]
@[simp] theorem cmdPort_valid {nw : Nat} {c : PortInputs} (h : c.cmdValid = true) :
    cmdPort nw c = decodeCmd nw c.cmd := by
  simp [cmdPort, h]

@[simp] theorem decodePush_zero (w ch : Nat) : decodePush w ch 0 = .idle := by simp [decodePush]

/-- An instance that is presented nothing is left alone. -/
theorem chanCycle_quiet {ch : Nat} {s : State} (h : ch < s.chans.length) :
    chanCycle ch ChanIn.quiet s = .next s := by
  simp [chanCycle, List.getElem?_eq_getElem h, chanOps, ChanIn.quiet, runChanOps, decodePop]

/-- Instances that are presented nothing are left alone. -/
theorem chanCycles_replicate_quiet (n ch : Nat) (rest : List ChanIn) (s : State)
    (h : ch + n ≤ s.chans.length) :
    chanCycles ch (List.replicate n ChanIn.quiet ++ rest) s = chanCycles (ch + n) rest s := by
  induction n generalizing ch with
  | zero => rfl
  | succ n ih =>
    have hq := chanCycle_quiet (ch := ch) (s := s) (by omega)
    simp only [List.replicate_succ, List.cons_append, chanCycles, hq, andThen_next]
    rw [ih (ch + 1) (by omega)]
    congr 1; omega

/-- `PIDREG` with nothing presented. -/
theorem pidCycle_quiet {c : PortInputs} (s : State) (ht : c.tick = false)
    (hc : c.cmdValid = false) : pidCycle c s = .next s := by
  simp [pidCycle, ht, cmdPort_idle hc, decodeTick]

/-! ### The channel half of a cycle, said once -/

/-- What one cycle does to an instance that is presented `ci`: the push alone, the pop alone, both
together, or nothing (42_fifo.md R150, R152, R156). -/
def chanAfter (st : Nat → Elem) (ci : ChanIn) (c : Channel) : Channel :=
  match ci.push.testBit c.params.w, ci.popReq with
  | true, true => c.pushPop st (ci.push % 2 ^ c.params.w)
  | true, false => c.push (ci.push % 2 ^ c.params.w)
  | false, true => c.pop st
  | false, false => c

theorem chanAfter_params (st : Nat → Elem) (ci : ChanIn) (c : Channel) :
    (chanAfter st ci c).params = c.params := by
  unfold chanAfter; split <;> simp

/-- An instance that exists always completes its half of a cycle. -/
theorem chanCycle_of_some {ch : Nat} {ci : ChanIn} {s : State} {c : Channel}
    (h : s.chans[ch]? = some c) :
    chanCycle ch ci s =
      .next { s with chans := s.chans.set ch (chanAfter (s.stale ch) ci c) } := by
  have hself : s.chans.set ch c = s.chans := by
    obtain ⟨hlt, rfl⟩ := List.getElem?_eq_some_iff.mp h
    exact List.set_getElem_self hlt
  simp only [chanCycle, h, chanOps, chanAfter]
  rcases decodePush_cases c.params.w ch ci.push with ⟨hb, hd⟩ | ⟨hb, hd⟩ <;>
    cases hp : ci.popReq <;>
    simp [hb, hd, decodePop, runChanOps, exec, execPush, execPop, execPushPop,
      onChannel_of_some _ h, hself]

/-- Instances from `ch` on that all exist complete their halves of a cycle; nothing but those instances
changes, and each changes as `chanAfter` says. -/
theorem chanCycles_next {cis : List ChanIn} {ch : Nat} {s : State}
    (h : ch + cis.length ≤ s.chans.length) :
    ∃ chans, chanCycles ch cis s = .next { s with chans := chans } ∧
      chans.length = s.chans.length ∧
      (∀ k, k < ch ∨ ch + cis.length ≤ k → chans[k]? = s.chans[k]?) ∧
      (∀ k ci c, cis[k]? = some ci → s.chans[ch + k]? = some c →
        chans[ch + k]? = some (chanAfter (s.stale (ch + k)) ci c)) := by
  induction cis generalizing ch s with
  | nil => exact ⟨s.chans, rfl, rfl, fun _ _ => rfl, fun k ci c hk => by simp at hk⟩
  | cons ci rest ih =>
    have hlt : ch < s.chans.length := by simp at h; omega
    have hc : s.chans[ch]? = some s.chans[ch] := List.getElem?_eq_getElem hlt
    have hl : ch + 1 + rest.length ≤
        ({ s with chans := s.chans.set ch (chanAfter (s.stale ch) ci s.chans[ch]) } : State).chans.length := by
      simp at h ⊢; omega
    obtain ⟨chans, h1, h2, h3, h4⟩ := ih hl
    refine ⟨chans, ?_, by simpa using h2, ?_, ?_⟩
    · simp only [chanCycles, chanCycle_of_some hc, andThen_next]; exact h1
    · intro k hk
      have hne : ch ≠ k := by simp at hk; omega
      rw [h3 k (by simp at hk; omega)]
      simp [List.getElem?_set_ne hne]
    · intro k ci' c hk hs
      cases k with
      | zero =>
        simp at hk hs; subst hk
        rw [Nat.add_zero, h3 ch (by omega), List.getElem?_set_self hlt]
        obtain ⟨-, rfl⟩ := List.getElem?_eq_some_iff.mp hs
        rfl
      | succ k =>
        have e : ch + (k + 1) = ch + 1 + k := by omega
        rw [e] at hs ⊢
        refine h4 k ci' c (by simpa using hk) ?_
        simpa [List.getElem?_set_ne (show ch ≠ ch + 1 + k by omega)] using hs

/-- The regulator half of a cycle leaves everything but the registers alone. -/
theorem pidCycle_next {c : PortInputs} {s t : State} (h : pidCycle c s = .next t) :
    ∃ r, t = { s with regs := r } := by
  have hcmd : ∀ (u v : State), runDecoded (cmdPort s.num.nw c) u = .next v → ∃ r, v = { u with regs := r } := by
    intro u v huv
    unfold cmdPort at huv
    split at huv
    · rcases decodeCmd_cases s.num.nw c.cmd with ⟨-, i, hi, hhost⟩ | ⟨-, hres⟩
      · rw [hi] at huv
        cases i <;> first
          | (simp [Instr.isHostCommand] at hhost; done)
          | exact ⟨_, (Host.Outcome.next.inj huv).symm⟩
      · rw [hres] at huv; exact ⟨_, (Host.Outcome.next.inj huv).symm⟩
    · exact ⟨_, (Host.Outcome.next.inj huv).symm⟩
  obtain ⟨u, hu, hv⟩ := andThen_eq_next.mp h
  obtain ⟨r', rfl⟩ := hcmd u t hv
  unfold decodeTick at hu
  split at hu
  · obtain ⟨r, -, rfl⟩ := execTick_next hu; exact ⟨r', rfl⟩
  · obtain rfl := Host.Outcome.next.inj hu; exact ⟨r', rfl⟩

end Sys2Proof.Machine
end

