-- ==== Sys2Proof/Laws/PerInstr.lean ====
section
/-! SUPPORT. Statements about every operation as syntax, one lemma per constructor. -/

namespace Sys2Proof.Laws.EncodedForItsAgent

open Sys2Proof Sys2Proof.Machine

/-- The encoder puts an operation on a port driven by the one agent that may issue it
(60_exceptions.md R180), whatever the widths of the ports. -/
def Statement (i : Instr) : Prop :=
  ∀ widths : PortWidths, portAgent (encode widths i) = instrAgent i

theorem nop : Statement .nop := fun _ => rfl
theorem reset : Statement .reset := fun _ => rfl
theorem setSp (v : Nat) : Statement (.setSp v) := fun _ => rfl
theorem setKp (v : Nat) : Statement (.setKp v) := fun _ => rfl
theorem setKi (v : Nat) : Statement (.setKi v) := fun _ => rfl
theorem setKd (v : Nat) : Statement (.setKd v) := fun _ => rfl
theorem wrAct (v : Nat) : Statement (.wrAct v) := fun _ => rfl
theorem wrPv (v : Nat) : Statement (.wrPv v) := fun _ => rfl
theorem tick : Statement .tick := fun _ => rfl
theorem push (ch : Nat) (item : Elem) : Statement (.push ch item) := fun _ => rfl
theorem pop (ch : Nat) : Statement (.pop ch) := fun _ => rfl

end Sys2Proof.Laws.EncodedForItsAgent
end

