-- ==== Sys2Proof/Laws/Rounding.lean ====
section
/-! SUPPORT. The rounding of a magnitude to binary32: what `divNearestEven` and `roundMag` can answer. -/

namespace Sys2Proof.Machine

/-! ### Rounding to an integer -/

/-- The distance between two naturals. -/
def natDist (a b : Nat) : Nat := (a - b) + (b - a)

theorem natDist_eq_natAbs (a b : Nat) : natDist a b = ((a : Int) - b).natAbs := by
  unfold natDist; omega

/-- No integer multiple of `d` is nearer to `n` than the one `divNearestEven` answers. -/
theorem divNearestEven_nearest {n d : Nat} (hd : 0 < d) (m : Nat) :
    natDist (divNearestEven n d * d) n ≤ natDist (m * d) n := by
  have hn : d * (n / d) + n % d = n := Nat.div_add_mod n d
  have hr : n % d < d := Nat.mod_lt n hd
  have hmul : ∀ k, (n / d + k) * d = d * (n / d) + k * d := fun k => by ring
  have hm : m ≤ n / d ∨ n / d + 1 ≤ m := by omega
  have hlo : m ≤ n / d → m * d ≤ d * (n / d) := fun h => by
    rw [Nat.mul_comm d]; exact Nat.mul_le_mul_right d h
  have hhi : n / d + 1 ≤ m → d * (n / d) + d ≤ m * d := fun h => by
    have := Nat.mul_le_mul_right d h; rw [hmul 1] at this; omega
  have hq0 := hmul 0
  have hq1 := hmul 1
  have hrange : divNearestEven n d = n / d ∧ 2 * (n % d) ≤ d ∨
      divNearestEven n d = n / d + 1 ∧ d ≤ 2 * (n % d) := by
    unfold divNearestEven; dsimp only
    split
    · exact .inl ⟨rfl, by omega⟩
    · split
      · exact .inr ⟨rfl, by omega⟩
      · have : n / d % 2 = 0 ∨ n / d % 2 = 1 := by omega
        rcases this with h | h
        · exact .inl ⟨by omega, by omega⟩
        · exact .inr ⟨by omega, by omega⟩
  unfold natDist
  rcases hrange with ⟨h, h'⟩ | ⟨h, h'⟩ <;> rw [h] <;> rcases hm with h1 | h1
  · have := hlo h1; rw [← Nat.add_zero (n / d), hq0]; omega
  · have := hhi h1; rw [← Nat.add_zero (n / d), hq0]; omega
  · have := hlo h1; rw [hq1]; omega
  · have := hhi h1; rw [hq1]; omega

/-- Where another multiple is as near, the answer is even. -/
theorem divNearestEven_tie {n d : Nat} (hd : 0 < d) {m : Nat} (hne : m ≠ divNearestEven n d)
    (h : natDist (divNearestEven n d * d) n = natDist (m * d) n) : divNearestEven n d % 2 = 0 := by
  have hn : d * (n / d) + n % d = n := Nat.div_add_mod n d
  have hr : n % d < d := Nat.mod_lt n hd
  have hmul : ∀ k, (n / d + k) * d = d * (n / d) + k * d := fun k => by ring
  have hq0 := hmul 0
  have hq1 := hmul 1
  have hle : m ≤ n / d → m * d ≤ d * (n / d) := fun h => by
    rw [Nat.mul_comm d]; exact Nat.mul_le_mul_right d h
  have hlt : m + 1 ≤ n / d → m * d + d ≤ d * (n / d) := fun h => by
    have := Nat.mul_le_mul_right d h; rw [Nat.add_mul, Nat.mul_comm (n / d)] at this; omega
  have hge : n / d + 1 ≤ m → d * (n / d) + d ≤ m * d := fun h => by
    have := Nat.mul_le_mul_right d h; rw [hmul 1] at this; omega
  have hgt : n / d + 2 ≤ m → d * (n / d) + 2 * d ≤ m * d := fun h => by
    have := Nat.mul_le_mul_right d h; rw [hmul 2] at this; omega
  unfold divNearestEven at *; dsimp only at *
  unfold natDist at h
  split at h
  · rw [← Nat.add_zero (n / d), hq0] at h
    rename_i h2; rw [if_pos h2] at hne
    rcases Nat.lt_or_ge m (n / d) with h3 | h3
    · have := hlt h3; omega
    · have := hge (by omega); omega
  · rename_i h2; rw [if_neg h2] at hne ⊢
    split at h
    · rename_i h4; rw [if_pos h4] at hne ⊢
      rw [hq1] at h
      rcases Nat.lt_or_ge m (n / d + 1) with h3 | h3
      · have := hle (by omega); omega
      · have := hgt (by omega); omega
    · rename_i h4; rw [if_neg h4]
      omega

/-! ### What the encodings stand for -/

/-- A significand `r` of at most 24 bits, scaled by `sh`, is encoded as `sh * 2^23 + r`. -/
theorem magUnits_scaled {sh r : Nat} (hr : r ≤ 2 ^ 24) (h : sh = 0 ∨ 2 ^ 23 ≤ r) :
    magUnits (sh * 2 ^ 23 + r) = r * 2 ^ sh := by
  unfold magUnits
  rcases Nat.lt_or_ge r (2 ^ 23) with hlt | hge
  · obtain rfl : sh = 0 := h.resolve_right (by omega)
    rw [if_pos (by omega)]; simp
  · rcases Nat.lt_or_ge r (2 ^ 24) with hlt | hge'
    · have hq : (sh * 2 ^ 23 + r) / 2 ^ 23 = sh + 1 := by omega
      have hm : (sh * 2 ^ 23 + r) % 2 ^ 23 = r - 2 ^ 23 := by omega
      rw [if_neg (by omega), hq, hm, Nat.shiftLeft_eq, Nat.add_sub_cancel,
        Nat.add_sub_cancel' hge]
    · obtain rfl : r = 2 ^ 24 := Nat.le_antisymm hr hge'
      have hq : (sh * 2 ^ 23 + 2 ^ 24) / 2 ^ 23 = sh + 2 := by omega
      have hm : (sh * 2 ^ 23 + 2 ^ 24) % 2 ^ 23 = 0 := by omega
      rw [if_neg (by omega), hq, hm, Nat.shiftLeft_eq]
      have : sh + 2 - 1 = sh + 1 := by omega
      rw [this, Nat.pow_succ]; ring

/-- A value from `2^23 * 2^sh` on is a multiple of `2^sh`; a smaller one is below it. -/
theorem magUnits_multiple_or_small (m sh : Nat) :
    (∃ k, magUnits m = k * 2 ^ sh) ∨ magUnits m < 2 ^ 23 * 2 ^ sh := by
  unfold magUnits
  split
  · right
    have : m < 2 ^ 23 := by omega
    exact Nat.lt_of_lt_of_le this (Nat.le_mul_of_pos_right _ (by positivity))
  · rw [Nat.shiftLeft_eq]
    rcases Nat.lt_or_ge (m / 2 ^ 23 - 1) sh with hlt | hge
    · right
      have h24 : 2 ^ 23 + m % 2 ^ 23 < 2 ^ 24 := by omega
      calc (2 ^ 23 + m % 2 ^ 23) * 2 ^ (m / 2 ^ 23 - 1)
          < 2 ^ 24 * 2 ^ (m / 2 ^ 23 - 1) := by gcongr
        _ = 2 ^ 23 * 2 ^ (m / 2 ^ 23 - 1 + 1) := by rw [Nat.pow_succ]; ring
        _ ≤ 2 ^ 23 * 2 ^ sh := by gcongr <;> omega
    · left
      refine ⟨(2 ^ 23 + m % 2 ^ 23) * 2 ^ (m / 2 ^ 23 - 1 - sh), ?_⟩
      rw [Nat.mul_assoc, ← Nat.pow_add]; congr 2; omega

/-! ### `roundMag` -/

/-- The significand `roundMag` rounds to. -/
def roundSig (n d : Nat) : Nat := divNearestEven n (d <<< roundShift n d)

theorem roundMag_eq (n d : Nat) :
    roundMag n d = min (roundShift n d * 2 ^ 23 + roundSig n d) infBits := rfl

/-- The magnitude lies below `2^24` units of the scale it is rounded at, and from `2^23` on unless the
scale is one unit. -/
theorem roundShift_bounds {n d : Nat} (hd : 0 < d) :
    n < 2 ^ 24 * (d <<< roundShift n d) ∧
      (roundShift n d = 0 ∨ 2 ^ 23 * (d <<< roundShift n d) ≤ n) := by
  have hq : n / d < 2 ^ (Nat.log2 (n / d) + 1) := Nat.lt_log2_self
  have hn : n < (n / d + 1) * d := by
    have := Nat.div_add_mod n d; have := Nat.mod_lt n hd
    rw [Nat.add_mul, Nat.mul_comm (n / d)]; omega
  simp only [Nat.shiftLeft_eq, roundShift]
  constructor
  · calc n < (n / d + 1) * d := hn
      _ ≤ 2 ^ (Nat.log2 (n / d) + 1) * d := Nat.mul_le_mul_right d hq
      _ ≤ 2 ^ (24 + (Nat.log2 (n / d) - 23)) * d :=
          Nat.mul_le_mul_right d (Nat.pow_le_pow_right (by omega) (by omega))
      _ = 2 ^ 24 * (d * 2 ^ (Nat.log2 (n / d) - 23)) := by rw [Nat.pow_add]; ring
  · rcases Nat.lt_or_ge (Nat.log2 (n / d)) 24 with h | h
    · left; omega
    · right
      have hq0 : n / d ≠ 0 := by rintro h0; rw [h0] at h; simp at h
      have hp : 2 ^ Nat.log2 (n / d) ≤ n / d := Nat.log2_self_le hq0
      calc 2 ^ 23 * (d * 2 ^ (Nat.log2 (n / d) - 23))
          = 2 ^ (23 + (Nat.log2 (n / d) - 23)) * d := by rw [Nat.pow_add]; ring
        _ = 2 ^ Nat.log2 (n / d) * d := by congr 2; omega
        _ ≤ n / d * d := by gcongr
        _ ≤ n := Nat.div_mul_le_self n d

/-- The significand has at most 24 bits, and 24 of them unless the scale is one unit. -/
theorem roundSig_bounds {n d : Nat} (hd : 0 < d) :
    roundSig n d ≤ 2 ^ 24 ∧ (roundShift n d = 0 ∨ 2 ^ 23 ≤ roundSig n d) := by
  obtain ⟨hlt, hge⟩ := roundShift_bounds (n := n) hd
  have hD : 0 < d <<< roundShift n d := by rw [Nat.shiftLeft_eq]; positivity
  unfold roundSig
  generalize d <<< roundShift n d = D at *
  have hq : n / D < 2 ^ 24 := Nat.div_lt_of_lt_mul (by rwa [Nat.mul_comm])
  have hstep : divNearestEven n D ≤ n / D + 1 ∧ n / D ≤ divNearestEven n D := by
    unfold divNearestEven; dsimp only; split
    · omega
    · split <;> omega
  refine ⟨by omega, hge.imp_right fun h => ?_⟩
  have := (Nat.le_div_iff_mul_le hD).mpr h
  omega

/-- Before the overflow test, the encoding `roundMag` forms stands for its significand, scaled. -/
theorem magUnits_roundSig {n d : Nat} (hd : 0 < d) :
    magUnits (roundShift n d * 2 ^ 23 + roundSig n d) * d =
      roundSig n d * (d <<< roundShift n d) := by
  obtain ⟨h1, h2⟩ := roundSig_bounds (n := n) hd
  rw [magUnits_scaled h1 h2, Nat.shiftLeft_eq]; ring

/-- No binary32 magnitude is nearer to `n / d`, and one that is as near is the odd one. -/
theorem roundSig_nearest {n d : Nat} (hd : 0 < d) (m : Nat) :
    natDist (roundSig n d * (d <<< roundShift n d)) n ≤ natDist (magUnits m * d) n ∧
      (natDist (roundSig n d * (d <<< roundShift n d)) n = natDist (magUnits m * d) n →
        magUnits m * d ≠ roundSig n d * (d <<< roundShift n d) → roundSig n d % 2 = 0) := by
  obtain ⟨-, hge⟩ := roundShift_bounds (n := n) hd
  have hD : 0 < d <<< roundShift n d := by rw [Nat.shiftLeft_eq]; positivity
  have hcases : (∃ k, magUnits m * d = k * (d <<< roundShift n d)) ∨
      magUnits m * d < 2 ^ 23 * (d <<< roundShift n d) ∧
        2 ^ 23 * (d <<< roundShift n d) ≤ n := by
    rcases magUnits_multiple_or_small m (roundShift n d) with ⟨k, hk⟩ | hs
    · exact .inl ⟨k, by rw [hk, Nat.shiftLeft_eq]; ring⟩
    · rcases hge with h0 | hge
      · exact .inl ⟨magUnits m, by rw [h0, Nat.shiftLeft_zero]⟩
      · refine .inr ⟨?_, hge⟩
        rw [Nat.shiftLeft_eq]
        calc magUnits m * d < 2 ^ 23 * 2 ^ roundShift n d * d := by gcongr
          _ = 2 ^ 23 * (d * 2 ^ roundShift n d) := by ring
  unfold roundSig
  generalize d <<< roundShift n d = D at *
  rcases hcases with ⟨k, hk⟩ | ⟨hs, hn⟩
  · rw [hk]
    refine ⟨divNearestEven_nearest hD k, fun htie hne => ?_⟩
    exact divNearestEven_tie hD (fun h => hne (by rw [h])) htie
  · have := divNearestEven_nearest (n := n) hD (2 ^ 23)
    unfold natDist at *
    exact ⟨by omega, fun _ _ => by omega⟩

/-- The magnitude overflows exactly from half a spacing above the largest finite value on. -/
theorem roundMag_overflow_iff {n d : Nat} (hd : 0 < d) :
    infBits ≤ roundShift n d * 2 ^ 23 + roundSig n d ↔ overflowUnits * d ≤ n := by
  obtain ⟨hlt, hge⟩ := roundShift_bounds (n := n) hd
  obtain ⟨h24, h23⟩ := roundSig_bounds (n := n) hd
  have hD : 0 < d <<< roundShift n d := by rw [Nat.shiftLeft_eq]; positivity
  obtain ⟨X, hXdef⟩ : ∃ X, X = d * 2 ^ 252 := ⟨_, rfl⟩
  have hov : overflowUnits * d = 33554431 * X := by rw [hXdef]; unfold overflowUnits; ring
  have hX0 : 0 < X := by rw [hXdef]; positivity
  rw [hov]
  unfold infBits
  rcases Nat.lt_trichotomy (roundShift n d) 253 with h | h | h
  · have hle : d <<< roundShift n d ≤ X := by
      rw [Nat.shiftLeft_eq, hXdef]
      exact Nat.mul_le_mul_left d (Nat.pow_le_pow_right (by omega) (by omega))
    constructor
    · intro hi; omega
    · intro hi; exfalso; omega
  · have hX : d <<< roundShift n d = 2 * X := by
      rw [h, Nat.shiftLeft_eq, hXdef, show (253 : Nat) = 252 + 1 from rfl, Nat.pow_succ]; ring
    have hnear := divNearestEven_nearest (n := n) hD (2 ^ 24)
    have hnear' := divNearestEven_nearest (n := n) hD (2 ^ 24 - 1)
    have htie := fun hne => divNearestEven_tie (n := n) (m := 2 ^ 24) hD hne
    change natDist (roundSig n d * _) n ≤ _ at hnear
    change natDist (roundSig n d * _) n ≤ _ at hnear'
    change ∀ _ : 2 ^ 24 ≠ roundSig n d, natDist (roundSig n d * _) n = _ → roundSig n d % 2 = 0
      at htie
    rw [h]
    rw [hX] at hnear hnear' htie hlt
    generalize roundSig n d = r at *
    have key : 0x7F800000 ≤ 253 * 2 ^ 23 + r ↔ r = 2 ^ 24 := by omega
    rw [key]
    constructor
    · rintro rfl
      unfold natDist at hnear'; omega
    · intro hi
      by_contra hne
      have hr : r * (2 * X) ≤ (2 ^ 24 - 1) * (2 * X) := Nat.mul_le_mul_right _ (by omega)
      rcases Nat.lt_or_ge r (2 ^ 24 - 1) with hr' | hr'
      · have : r * (2 * X) + 2 * X ≤ (2 ^ 24 - 1) * (2 * X) := by
          have := Nat.mul_le_mul_right (2 * X) hr'
          rw [Nat.succ_mul] at this; exact this
        unfold natDist at hnear; omega
      · obtain rfl : r = 2 ^ 24 - 1 := by omega
        have := htie (by omega) (by unfold natDist at hnear ⊢; omega)
        omega
  · constructor
    · intro _
      have hXX : 4 * X ≤ d <<< roundShift n d := by
        rw [Nat.shiftLeft_eq, hXdef]
        calc 4 * (d * 2 ^ 252) = d * 2 ^ 254 := by
              rw [show (254 : Nat) = 252 + 2 from rfl, Nat.pow_add]; ring
          _ ≤ d * 2 ^ roundShift n d :=
              Nat.mul_le_mul_left d (Nat.pow_le_pow_right (by omega) (by omega))
      have := hge.resolve_left (by omega)
      omega
    · intro _
      have := h23.resolve_left (by omega)
      omega

/-- Everything `roundMag` can answer (00_scope.md R13): below the overflow bound a finite magnitude than
which none is nearer, and which is even where another is as near; from the bound on, the infinity. -/
theorem roundMag_spec {n d : Nat} (hd : 0 < d) :
    (n < overflowUnits * d → roundMag n d < infBits ∧
      ∀ m, natDist (magUnits (roundMag n d) * d) n ≤ natDist (magUnits m * d) n ∧
        (natDist (magUnits (roundMag n d) * d) n = natDist (magUnits m * d) n →
          magUnits m ≠ magUnits (roundMag n d) → roundMag n d % 2 = 0)) ∧
    (overflowUnits * d ≤ n → roundMag n d = infBits) := by
  have hiff := roundMag_overflow_iff (n := n) hd
  constructor
  · intro hlt
    have hfin : roundShift n d * 2 ^ 23 + roundSig n d < infBits := by
      by_contra h; exact absurd (hiff.mp (by omega)) (by omega)
    have heq : roundMag n d = roundShift n d * 2 ^ 23 + roundSig n d := by
      rw [roundMag_eq]; exact Nat.min_eq_left (Nat.le_of_lt hfin)
    refine ⟨by omega, fun m => ?_⟩
    obtain ⟨h1, h2⟩ := roundSig_nearest (n := n) hd m
    rw [heq, magUnits_roundSig hd]
    refine ⟨h1, fun htie hne => ?_⟩
    have := h2 htie (fun h => hne (Nat.eq_of_mul_eq_mul_right hd (by rw [h, magUnits_roundSig hd])))
    omega
  · intro hge
    rw [roundMag_eq]; exact Nat.min_eq_right (hiff.mpr hge)

end Sys2Proof.Machine
end

