-- ==== Sys2Proof/Tests/Slice0.lean ====
section
/-! SUPPORT. Tests with results taken from spec/95_test_vectors.md and from the encoding tables of
spec/30_encoding.md, a smoke test of the well-formedness check, and a witness for the hypotheses of
every statement that has some. -/

-- One after another: a few hundred evaluations at once start more threads than the memory limit allows.
set_option Elab.async false

namespace Sys2Proof.Tests

open Sys2Proof Sys2Proof.Machine

/-! ### Small states and readers -/

/-- The ports of an `F32` instance with channels of the given widths. -/
def ports (widths : List Nat) : PortWidths := { nw := 32, chans := widths }

/-- Profile `F32` on encodings. -/
abbrev N32 : NumProfile Nat := profileArith .f32

/-- CFG-A and three empty CFG-F channels, with the given regulator registers. -/
def withRegs (r : PidRegs Nat) : State := { State.reset with regs := r }

/-- CFG-A with one CFG-F channel in the given state. -/
def withFifo (f : Fifo) : State :=
  { State.reset with
    chans := [{ params := Config.cfgF, fifo := f, out := { pushOk := false, popped := none } }] }

def regsOf : Result → Option (PidRegs Nat)
  | .next s => some s.regs
  | .fault _ => none
  | .refused _ => none

def fifoOf : Result → Option (Fifo × ChanOut)
  | .next s => (s.chans[0]?).map (fun c => (c.fifo, c.out))
  | .fault _ => none
  | .refused _ => none

def faultOf : Result → Option Fault
  | .next _ => none
  | .fault r => some r
  | .refused _ => none

def refusalOf : Result → Option Refusal
  | .next _ => none
  | .fault _ => none
  | .refused r => some r

/-- S1 of 95_test_vectors.md: `KP = 1`, `SP = 10`, `ACT = 5`. -/
def regsS1 : PidRegs Nat :=
  { kp := 0x3F800000, ki := 0, kd := 0, sp := 0x41200000, integral := 0,
    lastError := 0, act := 0x40A00000, pv := 0 }

/-- The start of V10: `I = 7.5`, `L = 5`. -/
def regsV10 : PidRegs Nat :=
  { regsS1 with integral := 0x40F00000, lastError := 0x40A00000 }

/-- The start of V8. -/
def regsV8 : PidRegs Nat :=
  { kp := 0x3F800000, ki := 0x3F800000, kd := 0x3F800000, sp := 0x3F800000,
    integral := 0, lastError := 0, act := 0x3E800000, pv := 0 }

/-- P4 before cycle 2. -/
def regsP4 : PidRegs Nat :=
  { kp := 0x40400000, ki := 0x3F800000, kd := 0, sp := 0x41200000,
    integral := 0x40200000, lastError := 0x40A00000, act := 0x40F00000, pv := 0 }

/-- CFG-A over exact rationals. -/
def cfgAExact : PidParams Rat :=
  { period := 1 / 2, inMin := 0, inMax := 100, intMin := -10, intMax := 10, eps := 1 / 1024,
    sp0 := 10, kp0 := 1, ki0 := 0, kd0 := 0, act0 := 0, pv0 := 0 }

/-- V7, row "zero error", over exact rationals. -/
def regsV7Exact : PidRegs Rat :=
  { kp := 1, ki := 1, kd := 1, sp := 10, integral := 2, lastError := 3, act := 10, pv := 0 }

/-- Row 2 of V11: `WR = 3`, `RD = 1`, `COUNT = 2`, `MEM = [??, 11, 22, ??]`. -/
def fifoV11 : Fifo := { mem := [(1, 0x11), (2, 0x22)], wr := 3, rd := 1, count := 2 }

/-- Row 2 of V12, full: `MEM = [17, 28, 39, D4]`. -/
def fifoFull : Fifo :=
  { mem := [(0, 0x17), (1, 0x28), (2, 0x39), (3, 0xD4)], wr := 3, rd := 3, count := 4 }

/-- Row 3 of V12, empty with stale elements. -/
def fifoStale : Fifo := { fifoFull with count := 0 }

/-! ### Well-formedness refuses -/

theorem test_wf_push_to_missing_instance : (Instr.push 3 0).wellFormed (ports [8, 8, 8]) = false := by decide
theorem test_wf_push_of_wide_item : (Instr.push 0 256).wellFormed (ports [8]) = false := by decide
theorem test_wf_pop_of_missing_instance : (Instr.pop 1).wellFormed (ports [8]) = false := by decide
theorem test_wf_push_of_widest_item : (Instr.push 1 255).wellFormed (ports [4, 8]) = true := by decide

/-! ### Decoding: words written out from 30_encoding.md R84 to R88 and 95_test_vectors.md V10 -/

theorem test_decode_nop : decodeCmd 32 0x0DEADBEEF = .op .nop := by decide
theorem test_decode_reset : decodeCmd 32 0x1FFFFFFFF = .op .reset := by decide
theorem test_decode_setsp : decodeCmd 32 0x2C1200000 = .op (.setSp 0xC1200000) := by decide
theorem test_decode_setkp : decodeCmd 32 0x340400000 = .op (.setKp 0x40400000) := by decide
theorem test_decode_setki : decodeCmd 32 0x43F000000 = .op (.setKi 0x3F000000) := by decide
theorem test_decode_setkd : decodeCmd 32 0x53E800000 = .op (.setKd 0x3E800000) := by decide
theorem test_decode_wract : decodeCmd 32 0x643160000 = .op (.wrAct 0x43160000) := by decide
theorem test_decode_wrpv : decodeCmd 32 0x741400000 = .op (.wrPv 0x41400000) := by decide
theorem test_decode_reserved_low : decodeCmd 32 0x840A00000 = .reserved 0x8#4 0x40A00000 := by decide
theorem test_decode_reserved_high : decodeCmd 32 0xF00000000 = .reserved 0xF#4 0 := by decide
theorem test_decode_tick : decode (ports [8]) (.tick true) = .op .tick := by decide
theorem test_decode_tick_idle : decode (ports [8]) (.tick false) = .idle := by decide
theorem test_decode_push : decode (ports [8]) (.push 0 0x1A7) = .op (.push 0 0xA7) := by decide
theorem test_decode_push_idle : decode (ports [8]) (.push 0 0x0A7) = .idle := by decide
theorem test_decode_pop : decode (ports [8]) (.popReq 0 true) = .op (.pop 0) := by decide
theorem test_table_word_setkp : decodeTableWord 40 0x33F800000 = some (.setKp 0x3F800000) := by decide
theorem test_table_word_push : decodeTableWord 16 0x1A7 = some (.push 0 0xA7) := by decide
theorem test_table_word_tick : decodeTableWord 8 1 = some .tick := by decide

/-! ### binary32 (V8: bits that depend on rounding once, to nearest even) -/

theorem test_fmul_rounds : fmul 0x3F400000 0x3DCCCCCD = 0x3D99999A := by decide +kernel
theorem test_fsub_rounds : fsub 0x3F800000 0x41053333 = 0xC0EA6666 := by decide +kernel

/-! ### The tick -/

/-- S1, tick 1. -/
theorem test_tick_proportional :
    regsOf (exec .tick (withRegs regsS1)) =
      some { regsS1 with integral := 0x40200000, lastError := 0x40A00000 } := by
  decide +kernel

/-- V8, tick 1, with `PERIOD` the binary32 nearest to 0.1 and all gains 1. -/
theorem test_tick_inexact :
    (pidTick N32 { Config.cfgA with period := 0x3DCCCCCD } regsV8).map (fun r => (r.integral, r.lastError, r.act)) =
      some (0x3D99999A, 0x3F400000, 0x41053333) := by
  decide +kernel

/-- V4: the magnitude equal to `EPS` runs, the next value below it is gated. -/
theorem test_gate_boundary :
    tickGated N32 Config.cfgA { regsS1 with act := 0x3A800000 } = false ∧
    tickGated N32 Config.cfgA { regsS1 with act := 0x3A7FFFFF } = true := by
  decide +kernel

/-- V9: `SP = +infinity` with zero gains gives `0 * inf`. -/
theorem test_tick_fault :
    faultOf (exec .tick (withRegs { regsS1 with sp := 0x7F800000 })) = some .nanTick := by
  decide +kernel

/-- V7, "zero error", over exact rationals. -/
theorem test_tick_exact :
    (pidTick profileQ cfgAExact regsV7Exact).map (fun r => (r.integral, r.lastError, r.act)) = some (2, 0, 0) := by
  decide +kernel

/-! ### Host commands (V10) -/

theorem test_reset_command :
    regsOf (exec .reset (withRegs regsV10)) =
      some { regsV10 with integral := 0, lastError := 0 } := by decide
theorem test_setki_keeps_integral :
    regsOf (exec (.setKi 0x3F000000) (withRegs regsV10)) =
      some { regsV10 with ki := 0x3F000000 } := by decide
theorem test_wract_unclamped :
    regsOf (exec (.wrAct 0x43160000) (withRegs regsV10)) =
      some { regsV10 with act := 0x43160000 } := by decide
theorem test_reserved_changes_nothing :
    regsOf (step ((withRegs regsV10).present (PortInputs.ofWord (.cmd 0x840A00000)))) =
      some regsV10 := by decide +kernel

/-- P4, cycle 2: the tick of `SP = 10`, `KP = 3`, `KI = 1`, then `ACT <- 8`. -/
theorem test_tick_with_wract :
    regsOf (step ((withRegs regsP4).present (tickCommandCycle 0x641000000))) =
      some { regsP4 with integral := 0x40700000, lastError := 0x40200000, act := 0x41000000 } := by
  decide +kernel

/-! ### Channels (V11, V12) -/

theorem test_push_wraps :
    fifoOf (exec (.push 0 0x5A) (withFifo fifoV11)) =
      some ({ mem := [(1, 0x11), (2, 0x22), (3, 0x5A)], wr := 0, rd := 1, count := 3 },
            { pushOk := true, popped := none }) := by decide
theorem test_push_full :
    fifoOf (exec (.push 0 0x77) (withFifo fifoFull)) =
      some (fifoFull, { pushOk := false, popped := none }) := by decide
theorem test_pop :
    fifoOf (exec (.pop 0) (withFifo fifoV11)) =
      some ({ fifoV11 with rd := 2, count := 1 }, { pushOk := false, popped := some 0x11 }) := by
  decide
theorem test_pop_empty :
    fifoOf (exec (.pop 0) (withFifo fifoStale)) =
      some (fifoStale, { pushOk := false, popped := none }) := by decide
theorem test_push_pop_full :
    fifoOf (step ((withFifo fifoFull).present (pushPopCycle 8 0 0x4A))) =
      some ({ fifoFull with rd := 0, count := 3 }, { pushOk := false, popped := some 0xD4 }) := by
  decide +kernel
theorem test_push_pop_empty :
    fifoOf (step ((withFifo fifoStale).present (pushPopCycle 8 0 0x5B))) =
      some ({ mem := [(0, 0x17), (1, 0x28), (2, 0x39), (3, 0x5B)], wr := 0, rd := 3, count := 1 },
            { pushOk := true, popped := none }) := by
  decide +kernel

/-! ### The cycle -/

/-- R210: the registers of CFG-A after a reset cycle that also presents a tick. -/
theorem test_reset_cycle :
    regsOf (step ((withRegs regsV10).present
        { PortInputs.quiet with rst := true, tick := true })) =
      some { regsS1 with act := 0 } := by decide +kernel
/-- R213. -/
theorem test_before_first_reset :
    refusalOf (step (({ State.reset with resetSeen := false } : State).present
        (PortInputs.ofWord (.tick true)))) = some .beforeFirstReset := by decide +kernel
/-- R10: `PERIOD = 0`. -/
theorem test_bad_configuration :
    refusalOf (step { State.reset with params := { Config.cfgA with period := 0 } }) =
      some .badConfiguration := by decide +kernel
/-- R10, D3: `INT_MIN = 10`, `INT_MAX = -10`. -/
theorem test_inverted_integral_limits :
    refusalOf (step { State.reset with
      params := { Config.cfgA with intMin := 0x41200000, intMax := 0xC1200000 } }) =
      some .badConfiguration := by decide +kernel
theorem test_missing_channel : refusalOf (exec (.pop 3) State.reset) = some (.noSuchChannel 3) := by
  decide
theorem test_fetch_word_push :
    fifoOf (step (State.reset.withFetchWord 16 0x1A7)) =
      some ({ mem := [(0, 0xA7)], wr := 1, rd := 0, count := 1 },
            { pushOk := true, popped := none }) := by decide +kernel

/-! ### Witnesses: for each statement with hypotheses, a state and operands that meet them -/

def isNext : Result → Bool
  | .next _ => true
  | .fault _ => false
  | .refused _ => false

theorem exists_of_isNext {o : Result} (h : isNext o = true) : ∃ t, o = .next t := by
  cases o with
  | next s => exact ⟨s, rfl⟩
  | fault _ => cases h
  | refused _ => cases h

/-- The one channel of `withFifo`. -/
def chanOf (f : Fifo) : Channel :=
  { params := Config.cfgF, fifo := f, out := { pushOk := false, popped := none } }

/-- An array whose listed entries pass the two tests is in order. -/
theorem arrayOk_of_all {p : ChanParams} {f : Fifo} (h : f.mem.wf = true)
    (ha : ∀ a ∈ f.mem, a.1 < p.cap ∧ a.2 < 2 ^ p.w) : f.ArrayOk p :=
  { canonical := h,
    index_lt := fun _ _ hr => (ha _ (Memory.mem_of_read hr)).1,
    elem_lt := fun _ _ hr => (ha _ (Memory.mem_of_read hr)).2 }

theorem inv_fifoV11 : (chanOf fifoV11).Inv :=
  { params := by decide, indices := { count_le := by decide, wr_lt := by decide, rd_lt := by decide,
                                      wr_eq := by decide },
    array := arrayOk_of_all (by decide) (by decide), stored := by unfold Fifo.Stored; decide }

theorem inv_fifoFull : (chanOf fifoFull).Inv :=
  { params := by decide, indices := { count_le := by decide, wr_lt := by decide, rd_lt := by decide,
                                      wr_eq := by decide },
    array := arrayOk_of_all (by decide) (by decide), stored := by unfold Fifo.Stored; decide }

theorem inv_fifoStale : (chanOf fifoStale).Inv :=
  { params := by decide, indices := { count_le := by decide, wr_lt := by decide, rd_lt := by decide,
                                      wr_eq := by decide },
    array := arrayOk_of_all (by decide) (by decide), stored := by unfold Fifo.Stored; decide }

theorem config_withFifo : (withFifo fifoV11).configOk = true := by decide +kernel

theorem widths_withFifo :
    ∀ v ∈ (withFifo fifoV11).regs.toList, v < 2 ^ (withFifo fifoV11).num.nw := by decide

theorem integral_cfgA :
    IntegralInRange N32 Config.cfgA (PidRegs.afterReset 0 Config.cfgA) := by
  unfold IntegralInRange; decide +kernel

theorem inv_withFifo {f : Fifo} (h : (chanOf f).Inv) : (withFifo f).Inv :=
  { config := config_withFifo, ready := rfl, widths := widths_withFifo, integral := fun _ => integral_cfgA,
    channels := fun c hc => by
      have : c = chanOf f := by simpa [withFifo, chanOf] using hc
      exact this ▸ h }

theorem witness_DecodeOfEncodeIsTheOperation :
    (Instr.push 1 255).wellFormed (ports [4, 8]) = true ∧ (Instr.pop 1).wellFormed (ports [4, 8]) = true := by decide

theorem witness_EncodeOfDecodedCommandIsTheWord :
    0x241200000 < 2 ^ (32 + 4) ∧ decodeCmd 32 0x241200000 = .op (.setSp 0x41200000) ∧
    decodeCmd 32 0x1FFFFFFFF = .op .reset ∧ decodeCmd 32 0x000000001 = .op .nop := by decide

/-- Each clause at the ends of its range; the ranges do not meet. -/
theorem witness_OperationCodeSelectsTheCommand :
    0xFFFFFFFFF < 2 ^ (32 + 4) ∧ 0x0FFFFFFFF / 2 ^ 32 = 0 ∧ 0x100000000 / 2 ^ 32 = 1 ∧
    0x2FFFFFFFF / 2 ^ 32 = 2 ∧ 0x300000000 / 2 ^ 32 = 3 ∧ 0x4FFFFFFFF / 2 ^ 32 = 4 ∧
    0x500000000 / 2 ^ 32 = 5 ∧ 0x6FFFFFFFF / 2 ^ 32 = 6 ∧ 0x7FFFFFFFF / 2 ^ 32 = 7 ∧
    0x800000000 / 2 ^ 32 = 8 ∧ 0xFFFFFFFFF / 2 ^ 32 = 15 := by decide

theorem witness_ReservedCodeActsAsNop :
    0xFFFFFFFFF < 2 ^ (State.reset.num.nw + 4) ∧ 8 ≤ 0x800000000 / 2 ^ State.reset.num.nw ∧
    0xFFFFFFFF < 2 ^ State.reset.num.nw := by decide

theorem witness_StepRunsThePresentedOperation :
    State.reset.configOk = true ∧ State.reset.resetSeen = true ∧
    decode State.reset.widths (.cmd 0x241200000) = .op (.setSp 0x41200000) ∧
    decode State.reset.widths (.tick true) = .op .tick ∧
    decode State.reset.widths (.push 2 0x1A7) = .op (.push 2 0xA7) ∧
    decode State.reset.widths (.popReq 2 true) = .op (.pop 2) ∧
    (Instr.push 2 0xA7).wellFormed State.reset.widths = true ∧
    (Instr.pop 2).wellFormed State.reset.widths = true := by decide +kernel

theorem witness_PlacedTableWordRunsNext :
    State.reset.configOk = true ∧ State.reset.resetSeen = true ∧
    decodeTableWord 40 0x640A00000 = some (.wrAct 0x40A00000) ∧
    decodeTableWord 16 0x1A7 = some (.push 0 0xA7) ∧ decodeTableWord 8 1 = some .tick ∧
    (Instr.push 0 0xA7).wellFormed State.reset.widths = true := by decide +kernel

/-- A cycle that presents nothing, with a command on `cmd` and an element on `push_data`. -/
def quietWithData : PortInputs :=
  { PortInputs.quiet with cmd := 0x640A00000, chans := [{ push := 0x0A7, popReq := false }] }

theorem witness_QuietCycleChangesNothing :
    State.reset.configOk = true ∧ State.reset.inputs = [] ∧ quietWithData.rst = false ∧
    quietWithData.tick = false ∧ quietWithData.cmdValid = false ∧
    quietWithData.chans.length ≤ State.reset.chans.length ∧
    (∀ ci ∈ quietWithData.chans, ∀ c ∈ State.reset.chans,
      ci.push.testBit c.params.w = false ∧ ci.popReq = false) := by
  decide +kernel

theorem witness_TickThenCommandInOneCycle :
    (withRegs regsS1).configOk = true ∧ (withRegs regsS1).resetSeen = true ∧
    0xFFFFFFFF < 2 ^ (withRegs regsS1).num.nw ∧
    ∃ u, exec .tick (withRegs regsS1).started = .next u :=
  ⟨by decide +kernel, rfl, by decide, exists_of_isNext (by decide +kernel)⟩

/-- A tick, a command, and in turn both, a push, a pop and nothing on the channels. -/
def busyCycle : PortInputs :=
  { rst := false, tick := true, cmdValid := true, cmd := 0x641000000,
    chans := [{ push := 0x1A7, popReq := true }, { push := 0x1A7, popReq := false },
              { push := 0x0A7, popReq := true }] }

theorem witness_CycleServesEveryPort :
    (withRegs regsP4).configOk = true ∧ (withRegs regsP4).resetSeen = true ∧
    busyCycle.chans.length ≤ (withRegs regsP4).chans.length ∧
    (∃ u, andThen (exec .tick (withRegs regsP4).started) (runDecoded (decodeCmd 32 busyCycle.cmd))
      = .next u) ∧
    exec .tick (withRegs { regsS1 with sp := 0x7F800000 }).started = .fault .nanTick :=
  ⟨by decide +kernel, rfl, by decide, exists_of_isNext (by decide +kernel), by rfl⟩

/-- P4, cycle 2, with a push into instance 1 in the same cycle. -/
theorem test_busy_cycle :
    regsOf (step ((withRegs regsP4).present busyCycle)) =
      some { regsP4 with integral := 0x40700000, lastError := 0x40200000, act := 0x41000000 } ∧
    (match step ((withRegs regsP4).present busyCycle) with
      | .next t => t.contents 1 == [some 0xA7] && t.pushOk 1 && t.popped 2 == none
      | _ => false) = true := by
  decide +kernel

theorem witness_ResetCycleRestoresEveryRegister :
    (withRegs regsV10).configOk = true ∧
    ({ PortInputs.quiet with rst := true, tick := true } : PortInputs).rst = true ∧
    ({ PortInputs.quiet with rst := true, tick := true } : PortInputs).chans.length ≤
      (withRegs regsV10).chans.length ∧
    (withRegs regsV10).chans[2]? ≠ none := by decide +kernel

theorem witness_OperationBeforeFirstResetIsRefused :
    ({ State.reset with resetSeen := false } : State).configOk = true ∧
    decode State.reset.widths (.popReq 2 true) = .op (.pop 2) ∧
    (Instr.pop 2).wellFormed State.reset.widths = true ∧
    busyCycle.rst = false ∧ busyCycle.chans.length ≤ State.reset.chans.length ∧
    busyCycle.tick = true := by decide +kernel

/-- Each constraint broken by itself, at its boundary. -/
theorem witness_BrokenConfigurationIsRefused :
    N32.flt N32.zero 0 = false ∧ N32.flt 0x00000001 0x00000002 = true ∧
    N32.flt 0x80000001 0x00000001 = true ∧
    N32.flt N32.zero 0x00000001 = true ∧ N32.flt 0x80000001 N32.zero = true ∧
    isFinite (dec32 0x7F800000) = false ∧
    (∃ c ∈ [Channel.afterReset { cap := 0, w := 8 }], c.params.cap = 0 ∨ c.params.w = 0) ∧
    (∃ c ∈ [Channel.afterReset { cap := 4, w := 0 }], c.params.cap = 0 ∨ c.params.w = 0) := by
  decide +kernel

theorem witness_GoodConfigurationIsAccepted :
    State.reset.chans ≠ [] ∧ 1 ≤ State.reset.num.nw ∧ N32.flt N32.zero Config.cfgA.period = true ∧
    N32.flt Config.cfgA.inMax Config.cfgA.inMin = false ∧
    N32.flt Config.cfgA.intMax Config.cfgA.intMin = false ∧
    N32.flt N32.zero Config.cfgA.intMin = false ∧ N32.flt Config.cfgA.intMax N32.zero = false ∧
    N32.flt Config.cfgA.eps N32.zero = false ∧
    (∀ v ∈ Config.cfgA.toList, v < 2 ^ State.reset.num.nw ∧ isFinite (dec32 v) = true) ∧
    (∀ c ∈ State.reset.chans, 1 ≤ c.params.cap ∧ 1 ≤ c.params.w) := by decide +kernel

/-- A regulator whose fresh `ACT` is 5, with a nonzero error memory. -/
def sNudged : State :=
  { State.reset with
    params := { Config.cfgA with act0 := 0x40A00000 }, regs := regsV10 }

theorem witness_ResetThenTickEqualsFreshTick :
    sNudged.regs.kp = sNudged.params.kp0 ∧ sNudged.regs.ki = sNudged.params.ki0 ∧
    sNudged.regs.kd = sNudged.params.kd0 ∧ sNudged.regs.sp = sNudged.params.sp0 ∧
    sNudged.regs.act = sNudged.params.act0 ∧
    (∃ t, exec .tick sNudged.hardReset = .next t) ∧ sNudged.lockedOut = false :=
  ⟨by decide, by decide, by decide, by decide, by decide, exists_of_isNext (by decide +kernel),
    by decide +kernel⟩

/-- For the statements about a host command's operand: the widest one. -/
theorem witness_operand : 0xFFFFFFFF < 2 ^ State.reset.num.nw := by decide

theorem witness_SetterIsUsedByTheNextTick :
    (pidTick N32 Config.cfgA { regsS1 with sp := 0x41A00000 }).isSome = true ∧
    (pidTick N32 Config.cfgA { regsS1 with kp := 0x40400000 }).isSome = true ∧
    (pidTick N32 Config.cfgA { regsS1 with ki := 0x3F000000 }).isSome = true ∧
    (pidTick N32 Config.cfgA { regsS1 with kd := 0x3E800000 }).isSome = true := by
  decide +kernel

theorem witness_ProcessVariableReachesNoOperation : ∀ u, Instr.tick ≠ .wrPv u := fun _ h => nomatch h

theorem witness_NearZeroGateIsStrictAndRaw :
    N32.flt (N32.fabs State.reset.regs.act) State.reset.params.eps = true ∧
    State.reset.num = .f32 ∧ fabs 0xBA800000 = dec32 Config.cfgA.eps ∧
    flt 0 (dec32 Config.cfgA.eps) = true ∧ isNaN 0x7F800001 = true := by decide +kernel

/-- The values of S1, none of them NaN. -/
theorem witness_TickComputesThePseudocode :
    N32.flt (N32.fabs State.reset.regs.act) State.reset.params.eps = true ∧
    N32.flt (N32.fabs regsS1.act) Config.cfgA.eps = false ∧
    (tickLocals N32 Config.cfgA regsS1).hasNaN N32 = false := by decide +kernel

/-- A state of another profile: its tick, gated or not, never is a fault. -/
theorem witness_TickComputesThePseudocode_other :
    ({ State.reset with num := .other 16 } : State).num ≠ .f32 ∧
    ∃ t, exec .tick { State.reset with num := .other 16 } = .next t := by
  refine ⟨by decide, ?_⟩
  show ∃ t, execTick _ = .next t
  unfold execTick
  rcases pidTick_cases (profileArith (.other 16)) State.reset.params State.reset.regs with
    ⟨-, h⟩ | ⟨-, h, -⟩ | ⟨-, -, h⟩
  · exact ⟨_, by rw [h]⟩
  · cases h
  · exact ⟨_, by rw [h]⟩

/-- Each NaN of V9: in the error, and in the output only. -/
theorem witness_TickFaultsExactlyOnNaN :
    N32.isNaN (tickLocals N32 Config.cfgA { regsS1 with sp := 0x7FC00000 }).e = true ∧
    N32.isNaN (tickLocals N32 Config.cfgA { regsS1 with act := 0x7FC00000 }).a = true ∧
    N32.isNaN (tickLocals N32 Config.cfgA { regsS1 with sp := 0x7F800000 }).e = false ∧
    N32.isNaN (tickLocals N32 Config.cfgA { regsS1 with sp := 0x7F800000 }).out = true ∧
    faultOf (exec .tick (withRegs { regsS1 with sp := 0x7F800000 })) = some .nanTick := by
  decide +kernel

theorem witness_FiniteTickWithoutOverflowCompletes :
    (withRegs regsS1).num = .f32 ∧ (withRegs regsS1).configOk = true ∧
    [regsS1.kp, regsS1.ki, regsS1.kd, regsS1.sp, regsS1.integral, regsS1.lastError,
      regsS1.act].all N32.isFinite = true ∧
    (let l := tickLocals N32 Config.cfgA regsS1
     [l.e, l.d, N32.fmul regsS1.kp l.e, N32.fmul regsS1.ki l.i1, N32.fmul regsS1.kd l.d].all
      (fun x => !isInf (dec32 x))) = true := by decide +kernel

/-- For `WrittenActuationWithinLimits`, `TickNeverStoresNaN` and `IntegralStaysInRange`: V5. -/
theorem witness_WrittenActuationWithinLimits :
    (withRegs { regsS1 with kp := 0x447A0000 }).Ordered ∧
    (withRegs { regsS1 with kp := 0x447A0000 }).configOk = true ∧
    (withRegs { regsS1 with kp := 0x447A0000 }).lockedOut = false ∧
    (∃ t, exec .tick (withRegs { regsS1 with kp := 0x447A0000 }) = .next t) ∧
    IntegralInRange N32 Config.cfgA { regsS1 with kp := 0x447A0000 } :=
  ⟨.inl rfl, by decide +kernel, by decide +kernel, exists_of_isNext (by decide +kernel),
    by unfold IntegralInRange; decide +kernel⟩

theorem witness_TickNeverStoresNaN :
    (withRegs regsS1).lockedOut = false ∧ ∃ t, exec .tick (withRegs regsS1) = .next t :=
  ⟨by decide +kernel, exists_of_isNext (by decide +kernel)⟩

theorem witness_IntegralStaysInRange :
    (withRegs regsS1).configOk = true ∧ IntegralInRange N32 Config.cfgA regsS1 ∧
    ∃ t, exec .tick (withRegs regsS1) = .next t :=
  ⟨by decide +kernel, by unfold IntegralInRange; decide +kernel,
    exists_of_isNext (by decide +kernel)⟩

/-- V1, tick 5: `INTEGRAL = 10` and the error is 5. -/
theorem witness_SaturatedIntegratorStaysAtItsBound_high :
    (withRegs { regsS1 with integral := 0x41200000 }).lockedOut = false ∧
    (∃ t, exec .tick (withRegs { regsS1 with integral := 0x41200000 }) = .next t) ∧
    N32.flt N32.zero (N32.fsub 0x41200000 (clamp N32 0x40A00000 0 0x42C80000)) = true ∧
    N32.flt 0x41200000 Config.cfgA.intMax = false ∧ N32.flt Config.cfgA.intMax 0x41200000 = false :=
  ⟨by decide +kernel, exists_of_isNext (by decide +kernel), by decide +kernel, by decide +kernel,
    by decide +kernel⟩

/-- From V6 (a): `INTEGRAL = -10`, `SP = 0`, `ACT = 5`, so the error is -5. -/
theorem witness_SaturatedIntegratorStaysAtItsBound_low :
    (withRegs { regsS1 with integral := 0xC1200000, sp := 0 }).lockedOut = false ∧
    (∃ t, exec .tick (withRegs { regsS1 with integral := 0xC1200000, sp := 0 }) = .next t) ∧
    N32.flt (N32.fsub 0 (clamp N32 0x40A00000 0 0x42C80000)) N32.zero = true ∧
    N32.flt 0xC1200000 Config.cfgA.intMin = false ∧ N32.flt Config.cfgA.intMin 0xC1200000 = false :=
  ⟨by decide +kernel, exists_of_isNext (by decide +kernel), by decide +kernel, by decide +kernel,
    by decide +kernel⟩

/-- Two regulators that differ in `PV`, in a reset value and in their channels. -/
theorem witness_TickIsAFunctionOfSevenRegisters :
    let s' : State := { withFifo fifoV11 with
      params := { Config.cfgA with sp0 := 0x3F800000 }, regs := { regsS1 with pv := 0x41400000 } }
    s'.params.eps = (withRegs regsS1).params.eps ∧ s'.params ≠ (withRegs regsS1).params ∧
    s'.regs.act = (withRegs regsS1).regs.act ∧ s'.regs ≠ (withRegs regsS1).regs ∧
    ∃ t, exec .tick (withRegs regsS1) = .next t :=
  ⟨by decide, by decide, by decide, by decide, exists_of_isNext (by decide +kernel)⟩

theorem witness_OnlyWrActEndsALockout :
    State.reset.lockedOut = true ∧
    (∀ i ∈ [Instr.tick, .setKi 0x3F800000, .push 2 0xA7, .reset, .tick],
      i.wellFormed State.reset.widths = true ∧ ∀ v, i ≠ .wrAct v) := by
  refine ⟨by decide +kernel, fun i hi => ?_⟩
  simp only [List.mem_cons, List.not_mem_nil, or_false] at hi
  rcases hi with rfl | rfl | rfl | rfl | rfl <;> exact ⟨by decide, fun _ h => nomatch h⟩

theorem witness_ExactTickNeverFaults :
    paramsOk profileQ cfgAExact = true ∧ IntegralInRange profileQ cfgAExact regsV7Exact ∧
    tickGated profileQ cfgAExact regsV7Exact = false :=
  ⟨by decide +kernel, by unfold IntegralInRange; decide +kernel, by decide +kernel⟩

/-- A rounded sum, an exact zero sum, and a sum at the overflow boundary: the largest finite value and
half its spacing. -/
theorem witness_SumsAreCorrectlyRounded :
    isFinite 0x3F800000 = true ∧ isFinite 0x33800000 = true ∧
    units 0x3F800000 + units 0xBF800000 = 0 ∧ units 0x80000000 - units 0x00000000 = 0 ∧
    (units 0x7F7FFFFF + units 0x73000000).natAbs = overflowUnits * 1 := by decide +kernel

theorem witness_ProductsAreCorrectlyRounded :
    isFinite 0x3F400000 = true ∧ isFinite 0x3DCCCCCD = true ∧
    overflowUnits * 2 ^ 149 ≤ (units 0x7F7FFFFF * units 0x40000000).natAbs := by
  decide +kernel

theorem witness_QuotientsAreCorrectlyRounded :
    isFinite 0x3F800000 = true ∧ isFinite 0x00000001 = true ∧ units 0x00000001 ≠ 0 ∧
    overflowUnits * (units 0x00000001).natAbs ≤
      (units 0x3F800000 * 2 ^ 149 * (units 0x00000001).sign).natAbs := by decide +kernel

/-- Each clause of `InfinitiesAndNaNsAreCarried`. -/
theorem witness_InfinitiesAndNaNsAreCarried :
    isNaN 0x7F800001 = true ∧ isInf 0xFF800000 = true ∧ isInf 0x7F800000 = true ∧
    isFinite 0x7F7FFFFF = true ∧ isFinite 0x80000000 = true ∧ units 0x80000000 = 0 ∧
    units 0x00000001 ≠ 0 ∧ isNaN 0x7F800000 = false ∧
    signOf 0xFF800000 ≠ signOf 0x7F800000 := by decide +kernel

theorem witness_LessThanIsNumericOrder :
    isFinite 0x80000000 = true ∧ isFinite 0x7F7FFFFF = true ∧ isNaN 0xFFFFFFFF = true ∧
    isInf 0xFF800000 = true ∧ isInf 0x7F800000 = true ∧ flt 0xFF800000 0x7F800000 = true := by
  decide +kernel

theorem witness_ClampCasesUnderF32 :
    numLe f32 0 0x42C80000 = true ∧ isFinite 0 = true ∧ isFinite 0x42C80000 = true ∧
    flt 0xC0400000 0 = true ∧ flt 0x42C80000 0x43160000 = true ∧
    flt 0x40A00000 0 = false ∧ flt 0x42C80000 0x40A00000 = false ∧
    isNaN 0x7FC00000 = true := by decide +kernel

theorem witness_PushStoresAtTheWriteIndex :
    (withFifo fifoV11).chans[0]? = some (chanOf fifoV11) ∧
    (Instr.push 0 0x5A).wellFormed (withFifo fifoV11).widths = true ∧
    fifoV11.count ≠ Config.cfgF.cap := by decide

theorem witness_PushIntoFullDropsTheNewest :
    (withFifo fifoFull).chans[0]? = some (chanOf fifoFull) ∧ fifoFull.count = Config.cfgF.cap := by
  decide

theorem witness_PopTakesTheElementAtTheReadIndex :
    (withFifo fifoV11).chans[0]? = some (chanOf fifoV11) ∧ fifoV11.count ≠ 0 ∧
    fifoV11.mem.read fifoV11.rd = some 0x11 := by decide

theorem witness_PopFromEmptyChangesNothing :
    (withFifo fifoStale).chans[0]? = some (chanOf fifoStale) ∧ fifoStale.count = 0 := by decide

theorem witness_FlagsDecideSuccess :
    (withFifo fifoFull).chans[0]? = some (chanOf fifoFull) ∧
    State.reset.configOk = true := by decide +kernel

/-- For the statements about one channel: one neither full nor empty, a full one, an empty one. -/
theorem witness_ContentsBehaveAsAQueue :
    ((chanOf fifoV11).Inv ∧ fifoV11.count ≠ 4 ∧ fifoV11.count ≠ 0) ∧ (chanOf fifoFull).Inv ∧
    (chanOf fifoStale).Inv ∧ 0xFF < 2 ^ Config.cfgF.w :=
  ⟨⟨inv_fifoV11, by decide, by decide⟩, inv_fifoFull, inv_fifoStale, by decide⟩

theorem witness_StatusOutputsShowTheIndices :
    (chanOf fifoFull).Inv ∧ (withFifo fifoFull).Inv :=
  ⟨inv_fifoFull, inv_withFifo inv_fifoFull⟩

theorem witness_PushAndPopInOneCycle :
    (withFifo fifoFull).Inv ∧ (withFifo fifoStale).Inv ∧ (withFifo fifoV11).Inv ∧
    (withFifo fifoFull).chans[0]? = some (chanOf fifoFull) ∧ 0x4A < 2 ^ Config.cfgF.w :=
  ⟨inv_withFifo inv_fifoFull, inv_withFifo inv_fifoStale, inv_withFifo inv_fifoV11, by decide,
    by decide⟩

/-- P3, steps 2 to 7: six pushes into a channel of four. -/
theorem witness_OverfilledChannelKeepsTheOldest :
    (withFifo fifoStale).chans[0]? = some (chanOf fifoStale) ∧ (chanOf fifoStale).Inv ∧
    fifoStale.count = 0 ∧ Config.cfgF.cap < [0xA1, 0xB2, 0xC3, 0xD4, 0xE5, 0xF6].length ∧
    (∀ x ∈ [0xA1, 0xB2, 0xC3, 0xD4, 0xE5, 0xF6], x < 2 ^ Config.cfgF.w) :=
  ⟨by decide, inv_fifoStale, by decide, by decide, by decide⟩

/-- P3, steps 13 and 14. -/
def sP3 : State :=
  { withFifo fifoFull with
    inputs := [pushPopCycle 8 0 0x4A, PortInputs.ofWord (.popReq 0 true)] }

theorem witness_ElementsLeaveInTheOrderPushed :
    sP3.noReset = true ∧ isNext (runCycles 2 sP3) = true ∧ popsAlong 0 2 sP3 = [0xD4, 0x17] ∧
    pushesAlong 0 2 sP3 = [] := by decide +kernel

theorem witness_ElementsLeaveInTheOrderPushed_inv : sP3.Inv :=
  { config := config_withFifo, ready := rfl, widths := widths_withFifo, integral := fun _ => integral_cfgA,
    channels := (inv_withFifo inv_fifoFull).channels }

/-- The contents 0x11, 0x22 elsewhere in the array, with other stale elements. -/
def fifoMoved : Fifo :=
  { mem := [(0, 0x22), (1, 0x99), (3, 0x11)], wr := 1, rd := 3, count := 2 }

theorem inv_fifoMoved : (chanOf fifoMoved).Inv :=
  { params := by decide, indices := { count_le := by decide, wr_lt := by decide, rd_lt := by decide,
                                      wr_eq := by decide },
    array := arrayOk_of_all (by decide) (by decide), stored := by unfold Fifo.Stored; decide }

theorem witness_ContentsDetermineEveryResult :
    (∀ i ∈ [Instr.push 0 0x33, .pop 0], blockOf i = some 0) ∧
    (withFifo fifoV11).chans[0]? = some (chanOf fifoV11) ∧
    (withFifo fifoMoved).chans[0]? = some (chanOf fifoMoved) ∧
    (chanOf fifoV11).Inv ∧ (chanOf fifoMoved).Inv ∧
    fifoV11.contents Config.cfgF = fifoMoved.contents Config.cfgF :=
  ⟨by decide, by decide, by decide, inv_fifoV11, inv_fifoMoved, by decide⟩

theorem witness_ResetEstablishesTheInvariant : (withRegs regsV10).configOk = true := by
  decide +kernel

/-- A step that has a successor, from a state that meets the invariant. -/
theorem witness_EveryStepKeepsTheInvariant :
    (withFifo fifoV11).Inv ∧ ∃ t, step (withFifo fifoV11) = .next t :=
  ⟨inv_withFifo inv_fifoV11, exists_of_isNext (by decide +kernel)⟩

theorem witness_EveryCycleCompletesOrMeetsANaN :
    sP3.Inv ∧ (fetchInputs sP3).chans.length ≤ sP3.chans.length :=
  ⟨witness_ElementsLeaveInTheOrderPushed_inv, by decide⟩

theorem witness_OperationsNeverTrap :
    (Instr.push 2 0xFF).wellFormed State.reset.widths = true ∧
    Instr.tick.wellFormed State.reset.widths = true := by decide

theorem witness_BlocksShareNoState :
    blockOf .tick ≠ blockOf (.push 0 0xA7) ∧ blockOf (.push 0 0xA7) ≠ blockOf (.pop 2) ∧
    (∃ t, exec .tick State.reset = .next t) ∧ (∃ t, exec (.pop 2) State.reset = .next t) :=
  ⟨by decide, by decide, exists_of_isNext (by decide +kernel), exists_of_isNext (by decide)⟩

/-- For `ConstantsNeverChange` and `ResultSignalsAreNotHeld`: a cycle that signals a result. -/
theorem witness_ResultSignalsAreNotHeld :
    (∃ t, step sP3 = .next t) ∧
    fifoOf (step sP3) = some ({ fifoFull with rd := 0, count := 3 },
      { pushOk := false, popped := some 0xD4 }) :=
  ⟨exists_of_isNext (by decide +kernel), by decide +kernel⟩

theorem witness_ConstantsNeverChange : ∃ t, step sP3 = .next t :=
  exists_of_isNext (by decide +kernel)

/-- The range of P5. -/
theorem witness_TextCommandsAssemble :
    isNaN (dec32 0) = false ∧ isNaN (dec32 0x42480000) = false ∧
    assembleText N32 { vLo := 0, vHi := 0x42480000 } (.target 0x42480000) =
      some (.setSp 0x42480000) ∧
    assembleText N32 { vLo := 0, vHi := 0x42480000 } (.target 0x42700000) = none ∧
    'p' ∉ ['P', 'I', 'D'] ∧ 'X' ∉ ['P', 'I', 'D', 'p', 'i', 'd'] := by
  decide +kernel

/-- A device registered twice: its two reads differ, and the one between them fails. -/
theorem witness_SamplerPushesOnlySuccessfulReads :
    Sampler.onTick (fun k d => if d.addr = 1 then none else some (0x42 + k))
      { maxDevices := 3, devices := [{ busId := 0, addr := 2 }, { busId := 0, addr := 1 },
                                     { busId := 0, addr := 2 }],
        channel := 1 } = [.push 1 0x42, .push 1 0x44] := by decide

end Sys2Proof.Tests
end

/-! PROOFS. The scope of the block (spec/00_scope.md): the configurations that have no meaning, the clamp,
the constants, and the independence of the blocks. -/

namespace Sys2Proof.Machine

/-! ### Refused configurations (R10) -/

/-- Settles O12: a good configuration contradicts each of the broken constraints, so `configOk` is false. -/
theorem brokenConfigurationIsRefused : Obligations.BrokenConfigurationIsRefused := by
  intro s hbroken
  refine step_of_bad_config (Bool.eq_false_iff.mpr fun hok => ?_)
  obtain ⟨hparams, -, hchans, -, -⟩ := s.configOk_iff.mp hok
  obtain ⟨hperiod, hin, hint, hlow, hhigh, heps, hfinite⟩ := (paramsOk_iff _ _).mp hparams
  rcases hbroken with h | h | h | h | h | h | ⟨hnum, v, hv, h⟩ | ⟨c, hc, h⟩
  · simp [hperiod] at h
  · simp [not_flt_of_numLe hin] at h
  · simp [not_flt_of_numLe hint] at h
  · simp [not_flt_of_numLe hlow] at h
  · simp [not_flt_of_numLe hhigh] at h
  · simp [not_flt_of_numLe heps] at h
  · have hf : (profileArith s.num).isFinite v = true := hfinite v hv
    rw [hnum, arith_f32_isFinite, h] at hf
    cases hf
  · have hcap : 1 ≤ c.params.cap ∧ 1 ≤ c.params.w := by simpa [ChanParams.ok] using hchans c hc
    omega

/-! ### The clamp (R15) -/

section Clamp

variable {N : NumProfile α} {v lo hi : α}

theorem clamp_of_flt_lo (h : N.flt v lo = true) : clamp N v lo hi = lo := by simp [clamp, h]

theorem clamp_of_hi_flt (h : N.flt v lo = false) (h' : N.flt hi v = true) :
    clamp N v lo hi = hi := by simp [clamp, h, h']

theorem clamp_of_within (h : N.flt v lo = false) (h' : N.flt hi v = false) :
    clamp N v lo hi = v := by simp [clamp, h, h']

end Clamp

/-- Every finite value lies below the positive infinity. -/
theorem flt_posInf_of_isFinite {a : Num32} (h : isFinite a = true) :
    flt a 0x7F800000#32 = true := by
  have hkey : fltKey 0x7F800000#32 = infBits := by decide
  have hmag : magBits a < infBits := of_decide_eq_true h
  refine (flt_iff _ _).mpr ⟨isNaN_of_isFinite h, by decide, ?_⟩
  rw [hkey, fltKey]
  split <;> omega

/-- The negative infinity lies below every finite value. -/
theorem negInf_flt_of_isFinite {a : Num32} (h : isFinite a = true) :
    flt 0xFF800000#32 a = true := by
  have hkey : fltKey 0xFF800000#32 = -infBits := by decide
  have hmag : magBits a < infBits := of_decide_eq_true h
  refine (flt_iff _ _).mpr ⟨by decide, isNaN_of_isFinite h, ?_⟩
  rw [hkey, fltKey]
  split <;> omega

/-- Nothing tells `-0` from `+0` as an upper operand of the comparison. -/
theorem flt_negZero_right (a : Num32) : flt a 0x80000000#32 = flt a 0x00000000#32 := by
  have hnan : isNaN 0x80000000#32 = isNaN 0x00000000#32 := by decide
  have hkey : fltKey 0x80000000#32 = fltKey 0x00000000#32 := by decide
  rw [Bool.eq_iff_iff, flt_iff, flt_iff, hnan, hkey]

/-- Settles O37: the three cases of the clamp, with the order of `F32` deciding which one each special
value falls under. -/
theorem clampCasesUnderF32 : Obligations.ClampCasesUnderF32 := by
  refine ⟨fun α N v lo hi => ⟨clamp_of_flt_lo, clamp_of_hi_flt, clamp_of_within⟩, ?_⟩
  intro v lo hi hle hlo hhi
  have hlohi : flt hi lo = false := not_flt_of_numLe hle
  refine ⟨clamp_of_flt_lo (N := f32), clamp_of_hi_flt (N := f32), clamp_of_within (N := f32),
    clamp_of_within (N := f32) (flt_irrefl lo) hlohi,
    clamp_of_within (N := f32) hlohi (flt_irrefl hi), clamp_nan lo hi,
    clamp_of_hi_flt (N := f32) (flt_asymm (flt_posInf_of_isFinite hlo)) (flt_posInf_of_isFinite hhi),
    clamp_of_flt_lo (N := f32) (negInf_flt_of_isFinite hlo), ?_⟩
  rintro rfl
  exact clamp_of_within (N := f32) (by decide) ((flt_negZero_right hi).trans hlohi)

/-! ### What an operation of each block reads and writes (R2) -/

/-- The outcome of an operation of `PIDREG`: the registers it leaves, or the fault on NaN. -/
def regsOutcome (s : State) : Option (PidRegs Nat) → Result
  | some r => .next { s with regs := r }
  | none => .fault .nanTick

/-- An operation of `PIDREG` reads the profile, the parameters and the registers, and writes the
registers. -/
theorem exec_of_blockOf_none {i : Instr} (h : blockOf i = none) :
    ∃ f : Profile → PidParams Nat → PidRegs Nat → Option (PidRegs Nat),
      ∀ s, exec i s = regsOutcome s (f s.num s.params s.regs) := by
  cases i with
  | nop => exact ⟨fun _ _ r => some r, fun _ => rfl⟩
  | reset =>
    exact ⟨fun n _ r => some { r with integral := (profileArith n).zero,
                                      lastError := (profileArith n).zero }, fun _ => rfl⟩
  | setSp v => exact ⟨fun n _ r => some { r with sp := lowBits n.nw v }, fun _ => rfl⟩
  | setKp v => exact ⟨fun n _ r => some { r with kp := lowBits n.nw v }, fun _ => rfl⟩
  | setKi v => exact ⟨fun n _ r => some { r with ki := lowBits n.nw v }, fun _ => rfl⟩
  | setKd v => exact ⟨fun n _ r => some { r with kd := lowBits n.nw v }, fun _ => rfl⟩
  | wrAct v => exact ⟨fun n _ r => some { r with act := lowBits n.nw v }, fun _ => rfl⟩
  | wrPv v => exact ⟨fun n _ r => some { r with pv := lowBits n.nw v }, fun _ => rfl⟩
  | tick =>
    refine ⟨fun n p r => pidTick (profileArith n) p r, fun s => ?_⟩
    show execTick s = regsOutcome s (pidTick s.arith s.params s.regs)
    unfold execTick
    cases pidTick s.arith s.params s.regs <;> rfl
  | push ch item => cases h
  | pop ch => cases h

/-- An operation of channel `ch` reads that channel and the model's own `memEpoch`, and writes that
channel. -/
theorem exec_of_blockOf_some {i : Instr} {ch : Nat} (h : blockOf i = some ch) :
    ∃ f : Nat → Channel → Channel, ∀ s, exec i s = onChannel ch s (f s.memEpoch) := by
  cases i with
  | push k item => cases h; exact ⟨fun _ => Channel.push item, fun _ => rfl⟩
  | pop k => cases h; exact ⟨fun n => Channel.pop (Config.staleElem n ch), fun _ => rfl⟩
  | _ => cases h

/-- The frame of an operation of `PIDREG`. -/
theorem exec_next_of_blockOf_none {i : Instr} {s t : State} (hb : blockOf i = none)
    (h : exec i s = .next t) : ∃ r, t = { s with regs := r } := by
  obtain ⟨f, hf⟩ := exec_of_blockOf_none hb
  rw [hf] at h
  cases hr : f s.num s.params s.regs with
  | none => rw [hr] at h; cases h
  | some r => rw [hr] at h; exact ⟨r, (Host.Outcome.next.inj h).symm⟩

/-- The frame of an operation of channel `ch`. -/
theorem exec_next_of_blockOf_some {i : Instr} {ch : Nat} {s t : State} (hb : blockOf i = some ch)
    (h : exec i s = .next t) : ∃ c, t = { s with chans := s.chans.set ch c } := by
  obtain ⟨f, hf⟩ := exec_of_blockOf_some hb
  obtain ⟨c, -, ht⟩ := onChannel_next ((hf s).symm.trans h)
  exact ⟨_, ht⟩

/-- A well-formed operation names a channel that exists. -/
theorem exists_chan_of_wellFormed {i : Instr} {s : State} {ch : Nat}
    (h : i.wellFormed s.widths = true) (hb : blockOf i = some ch) : ∃ c, s.chans[ch]? = some c := by
  cases i with
  | push k item =>
    cases hb
    cases hc : s.chans[ch]? with
    | none => simp [Instr.wellFormed, hc] at h
    | some c => exact ⟨c, rfl⟩
  | pop k =>
    cases hb
    have hlt : ch < s.chans.length := by simpa [Instr.wellFormed] using h
    exact ⟨_, List.getElem?_eq_getElem hlt⟩
  | _ => cases hb

/-- An operation of `PIDREG` commutes with one of a channel that exists, the fault included. -/
theorem exec_comm_pid_chan {i j : Instr} {ch : Nat} {s : State} {c : Channel}
    (hi : blockOf i = none) (hj : blockOf j = some ch) (hc : s.chans[ch]? = some c) :
    andThen (exec i s) (exec j) = andThen (exec j s) (exec i) := by
  obtain ⟨f, hf⟩ := exec_of_blockOf_none hi
  obtain ⟨g, hg⟩ := exec_of_blockOf_some hj
  rw [hf, hg, onChannel_of_some _ hc, andThen_next, hf]
  cases hr : f s.num s.params s.regs with
  | none => simp [regsOutcome]
  | some r => simp [regsOutcome, hg, onChannel, hc]

/-- Operations of two channels that exist commute. -/
theorem exec_comm_chan_chan {i j : Instr} {k l : Nat} {s : State} {c d : Channel} (hkl : k ≠ l)
    (hi : blockOf i = some k) (hj : blockOf j = some l) (hc : s.chans[k]? = some c)
    (hd : s.chans[l]? = some d) :
    andThen (exec i s) (exec j) = andThen (exec j s) (exec i) := by
  obtain ⟨f, hf⟩ := exec_of_blockOf_some hi
  obtain ⟨g, hg⟩ := exec_of_blockOf_some hj
  simp [hf, hg, onChannel, hc, hd, List.getElem?_set_ne hkl, List.getElem?_set_ne hkl.symm,
    List.set_comm _ _ hkl]

/-- Settles O53: writing by the frame of each kind of operation, reading by the two commutations. -/
theorem blocksShareNoState : Obligations.BlocksShareNoState := by
  constructor
  · intro s t i h
    cases hb : blockOf i with
    | none =>
      obtain ⟨r, rfl⟩ := exec_next_of_blockOf_none hb h
      exact ⟨fun _ => rfl, nofun, rfl, rfl, rfl, rfl, rfl⟩
    | some ch =>
      obtain ⟨c, rfl⟩ := exec_next_of_blockOf_some hb h
      refine ⟨nofun, ?_, rfl, rfl, rfl, rfl, rfl⟩
      rintro _ ⟨⟩
      exact ⟨rfl, fun k hk => List.getElem?_set_ne hk.symm⟩
  · intro s i j hne hwi hwj
    cases hi : blockOf i with
    | none =>
      cases hj : blockOf j with
      | none => exact absurd (hi.trans hj.symm) hne
      | some l =>
        obtain ⟨d, hd⟩ := exists_chan_of_wellFormed hwj hj
        exact exec_comm_pid_chan hi hj hd
    | some k =>
      obtain ⟨c, hc⟩ := exists_chan_of_wellFormed hwi hi
      cases hj : blockOf j with
      | none => exact (exec_comm_pid_chan hj hi hc).symm
      | some l =>
        obtain ⟨d, hd⟩ := exists_chan_of_wellFormed hwj hj
        have hkl : k ≠ l := fun h => hne (by rw [hi, hj, h])
        exact exec_comm_chan_chan hkl hi hj hc hd

/-! ### The constants (R11) -/

/-- The constants: the profile, the parameters of `PIDREG` and those of every channel. -/
def State.constants (s : State) : Profile × PidParams Nat × List ChanParams :=
  (s.num, s.params, s.chans.map Channel.params)

@[simp] theorem State.hardReset_constants (s : State) : s.hardReset.constants = s.constants := by
  simp [State.constants, Function.comp_def]

@[simp] theorem State.beginCycle_constants (s : State) : s.beginCycle.constants = s.constants := by
  simp [State.constants, Function.comp_def]

/-- A channel put back with the parameters it had. -/
theorem map_params_set {l : List Channel} {ch : Nat} {c d : Channel} (h : l[ch]? = some c)
    (hp : d.params = c.params) : (l.set ch d).map Channel.params = l.map Channel.params := by
  obtain ⟨hlt, rfl⟩ := List.getElem?_eq_some_iff.mp h
  rw [List.map_set, hp, ← List.map_set, List.set_getElem_self]

theorem pidCycle_constants {c : PortInputs} {s t : State} (h : pidCycle c s = .next t) :
    t.constants = s.constants := by
  obtain ⟨r, rfl⟩ := pidCycle_next h
  rfl

theorem chanCycle_constants {ch : Nat} {ci : ChanIn} {s t : State} (h : chanCycle ch ci s = .next t) :
    t.constants = s.constants := by
  cases hc : s.chans[ch]? with
  | none => simp [chanCycle, hc] at h
  | some c =>
    rw [chanCycle_of_some hc] at h
    obtain rfl := Host.Outcome.next.inj h
    simp only [State.constants, map_params_set hc (chanAfter_params _ ci c)]

theorem chanCycles_constants {cis : List ChanIn} {ch : Nat} {s t : State}
    (h : chanCycles ch cis s = .next t) : t.constants = s.constants := by
  induction cis generalizing ch s with
  | nil => rw [Host.Outcome.next.inj h]
  | cons ci rest ih =>
    obtain ⟨u, hu, hrest⟩ := andThen_eq_next.mp h
    exact (ih hrest).trans (chanCycle_constants hu)

theorem operationsCycle_constants {c : PortInputs} {s t : State}
    (h : operationsCycle c s = .next t) : t.constants = s.constants := by
  obtain ⟨u, hpid, hchans⟩ := andThen_eq_next.mp h
  calc t.constants = u.constants := chanCycles_constants hchans
    _ = s.beginCycle.constants := pidCycle_constants hpid
    _ = s.constants := s.beginCycle_constants

/-- A cycle that completes, a reset cycle included, keeps the constants. -/
theorem step_constants {s t : State} (h : step s = .next t) : t.constants = s.constants := by
  obtain ⟨-, -, ⟨-, rfl⟩ | ⟨-, -, hops⟩⟩ := step_next h
  · exact s.consumeInputs.hardReset_constants
  · exact operationsCycle_constants (s := s.consumeInputs) hops

/-- Settles O54, from what every part of a cycle keeps. -/
theorem constantsNeverChange : Obligations.ConstantsNeverChange := by
  intro s t h
  simpa only [State.constants, Prod.mk.injEq] using step_constants h

end Sys2Proof.Machine

/-! PROOFS. The state of a channel (spec/10_state.md): what its flags decide, the invariant under a push
and a pop, and its contents as a queue that fixes every result. -/

namespace Sys2Proof.Machine

/-! ### The readers of a channel that exists -/

section Readers

variable {s : State} {ch : Nat} {c : Channel}

theorem State.pushOk_of_some (h : s.chans[ch]? = some c) : s.pushOk ch = c.out.pushOk := by
  simp [State.pushOk, h]

theorem State.popped_of_some (h : s.chans[ch]? = some c) : s.popped ch = c.out.popped := by
  simp [State.popped, h]

theorem State.contents_of_some (h : s.chans[ch]? = some c) :
    s.contents ch = c.fifo.contents c.params := by
  simp [State.contents, h]

end Readers

/-! ### The flags (R38) -/

theorem chanParamsOk_iff (p : ChanParams) : p.ok = true ↔ 1 ≤ p.cap ∧ 1 ≤ p.w := by
  simp [ChanParams.ok]

theorem Channel.push_pushOk (x : Elem) (c : Channel) :
    (c.push x).out.pushOk = !c.fifo.full c.params := by
  by_cases hf : c.fifo.count = c.params.cap
  · rw [push_of_full x hf, (Fifo.full_iff _ _).mpr hf]; rfl
  · rw [push_of_room x hf, (Fifo.not_full_iff _ _).mpr hf]; rfl

theorem Channel.pop_popped_isSome (st : Nat → Elem) (c : Channel) :
    (c.pop st).out.popped.isSome = !c.fifo.empty := by
  by_cases he : c.fifo.count = 0
  · rw [pop_of_empty st he, (Fifo.empty_iff _).mpr he]; rfl
  · rw [pop_of_stored st he, (Fifo.not_empty_iff _).mpr he]; rfl

/-- After a reset a channel is empty, and not full unless its capacity is 0 (R42). -/
theorem Channel.afterReset_flags {p : ChanParams} (h : p.ok = true) :
    (afterReset p).fifo.empty = true ∧ (afterReset p).fifo.full p = false := by
  obtain ⟨hcap, -⟩ := (chanParamsOk_iff p).mp h
  exact ⟨rfl, (Fifo.not_full_iff _ _).mpr (Nat.ne_of_lt hcap)⟩

/-- Settles O42: the signals of a push and of a pop are the flags negated. -/
theorem flagsDecideSuccess : Obligations.FlagsDecideSuccess := by
  refine ⟨fun c => ⟨Fifo.full_iff _ _, Fifo.empty_iff _, rfl, rfl⟩, ?_, ?_⟩
  · intro s ch item c hc
    refine ⟨_, _, onChannel_of_some (Channel.push item) hc, ?_,
      onChannel_of_some (Channel.pop (s.stale ch)) hc, ?_⟩
    · rw [State.pushOk_of_some (getElem?_set_self_of_some _ hc), Channel.push_pushOk]
    · rw [State.popped_of_some (getElem?_set_self_of_some _ hc), Channel.pop_popped_isSome]
  · intro s hok d hd
    obtain ⟨-, -, hchans, -, -⟩ := s.configOk_iff.mp hok
    obtain ⟨c, hc, rfl⟩ := List.mem_map.mp (s.hardReset_chans ▸ hd)
    exact Channel.afterReset_flags (hchans c hc)

/-! ### The contents (R37) -/

@[simp] theorem Fifo.contents_length (p : ChanParams) (f : Fifo) :
    (f.contents p).length = f.count := by
  simp [Fifo.contents]

theorem Fifo.contents_of_empty (p : ChanParams) {f : Fifo} (h : f.count = 0) : f.contents p = [] := by
  simp [Fifo.contents, h]

/-- Different places in the queue lie at different indices of the array. -/
theorem slot_injective {cap rd j k : Nat} (hj : j < cap) (hk : k < cap)
    (h : (rd + j) % cap = (rd + k) % cap) : j = k :=
  Nat.ModEq.eq_of_lt_of_lt (Nat.ModEq.add_left_cancel' rd h) hj hk

/-- A push that succeeds writes behind the last element, and over none of the contents. -/
theorem Channel.push_contents {c : Channel} (x : Elem) (h : c.fifo.IndicesOk c.params)
    (hf : c.fifo.count ≠ c.params.cap) :
    (c.push x).fifo.contents c.params =
      c.fifo.contents c.params ++ [some (lowBits c.params.w x)] := by
  have hkept : ∀ k ∈ List.range c.fifo.count,
      (c.fifo.mem.write c.fifo.wr (lowBits c.params.w x)).read ((c.fifo.rd + k) % c.params.cap) =
        c.fifo.mem.read ((c.fifo.rd + k) % c.params.cap) := by
    intro k hk
    have hlt : c.fifo.count < c.params.cap := lt_of_le_of_ne h.count_le hf
    have hk' : k < c.fifo.count := List.mem_range.mp hk
    refine Memory.read_write_other _ _ _ _ fun hslot => hk'.ne ?_
    exact slot_injective (hk'.trans hlt) hlt (hslot.trans h.wr_eq)
  rw [push_of_room x hf]
  simp only [Fifo.contents, List.range_succ, List.map_append, List.map_cons, List.map_nil]
  rw [List.map_congr_left hkept, ← h.wr_eq, Memory.read_write_same]

/-- A pop that succeeds takes the first place of the contents away. -/
theorem Channel.contents_eq_cons_pop {c : Channel} (st : Nat → Elem) (he : c.fifo.count ≠ 0) :
    c.fifo.contents c.params =
      c.fifo.mem.read (c.fifo.rd % c.params.cap) :: (c.pop st).fifo.contents c.params := by
  obtain ⟨n, hn⟩ := Nat.exists_eq_succ_of_ne_zero he
  rw [pop_of_stored st he]
  simp [Fifo.contents, hn, List.range_succ_eq_map, nextIndex, Nat.add_right_comm, Nat.add_assoc]

/-! ### The invariant of a channel under a push and a pop (R35, R36) -/

section Invariant

variable {c : Channel}

theorem Channel.push_indicesOk (x : Elem) (h : c.fifo.IndicesOk c.params) :
    (c.push x).fifo.IndicesOk c.params := by
  by_cases hf : c.fifo.count = c.params.cap
  · rw [push_of_full x hf]; exact h
  · rw [push_of_room x hf]
    exact { count_le := lt_of_le_of_ne h.count_le hf
            wr_lt := Nat.mod_lt _ (Nat.zero_lt_of_lt h.rd_lt)
            rd_lt := h.rd_lt
            wr_eq := by simp [nextIndex, h.wr_eq, Nat.add_assoc] }

theorem Channel.pop_indicesOk (st : Nat → Elem) (h : c.fifo.IndicesOk c.params) :
    (c.pop st).fifo.IndicesOk c.params := by
  by_cases he : c.fifo.count = 0
  · rw [pop_of_empty st he]; exact h
  · have hcount : c.fifo.rd + 1 + (c.fifo.count - 1) = c.fifo.rd + c.fifo.count := by omega
    rw [pop_of_stored st he]
    exact { count_le := (Nat.sub_le _ 1).trans h.count_le
            wr_lt := h.wr_lt
            rd_lt := Nat.mod_lt _ (Nat.zero_lt_of_lt h.rd_lt)
            wr_eq := by simp [nextIndex, h.wr_eq, hcount] }

/-- The array of a channel after a push: what was read before, or the element at `WR`. -/
theorem Channel.read_push {x : Elem} {i : Nat} {y : Elem} (h : (c.push x).fifo.mem.read i = some y) :
    c.fifo.mem.read i = some y ∨ i = c.fifo.wr ∧ y = lowBits c.params.w x := by
  by_cases hf : c.fifo.count = c.params.cap
  · rw [push_of_full x hf] at h; exact .inl h
  · rw [push_of_room x hf] at h
    by_cases hi : i = c.fifo.wr
    · subst hi
      rw [Memory.read_write_same] at h
      exact .inr ⟨rfl, (Option.some.inj h).symm⟩
    · rw [Memory.read_write_other _ _ _ _ hi] at h; exact .inl h

theorem Channel.push_arrayOk (x : Elem) (hwr : c.fifo.wr < c.params.cap)
    (h : c.fifo.ArrayOk c.params) : (c.push x).fifo.ArrayOk c.params where
  canonical := push_canonical x h.canonical
  index_lt i y hy := by
    obtain hold | ⟨rfl, -⟩ := read_push hy
    · exact h.index_lt i y hold
    · exact hwr
  elem_lt i y hy := by
    obtain hold | ⟨-, rfl⟩ := read_push hy
    · exact h.elem_lt i y hold
    · exact Nat.mod_lt _ (Nat.two_pow_pos _)

theorem Channel.pop_arrayOk (st : Nat → Elem) (h : c.fifo.ArrayOk c.params) :
    (c.pop st).fifo.ArrayOk c.params where
  canonical := by rw [pop_mem]; exact h.canonical
  index_lt := by rw [pop_mem]; exact h.index_lt
  elem_lt := by rw [pop_mem]; exact h.elem_lt

theorem Channel.push_stored (x : Elem) (hi : c.fifo.IndicesOk c.params)
    (h : c.fifo.Stored c.params) : (c.push x).fifo.Stored c.params := by
  by_cases hf : c.fifo.count = c.params.cap
  · rw [push_of_full x hf]; exact h
  · rw [Fifo.Stored, push_contents x hi hf]
    simpa [Fifo.Stored] using h

theorem Channel.pop_stored (st : Nat → Elem) (h : c.fifo.Stored c.params) :
    (c.pop st).fifo.Stored c.params := by
  by_cases he : c.fifo.count = 0
  · rw [pop_of_empty st he]; exact h
  · rw [Fifo.Stored, contents_eq_cons_pop st he] at h
    exact fun hnone => h (List.mem_cons_of_mem _ hnone)

/-- A push keeps the invariant, whatever word is pushed. -/
theorem Channel.push_inv (x : Elem) (h : c.Inv) : (c.push x).Inv where
  params := by rw [push_params]; exact h.params
  indices := by rw [push_params]; exact push_indicesOk x h.indices
  array := by rw [push_params]; exact push_arrayOk x h.indices.wr_lt h.array
  stored := by rw [push_params]; exact push_stored x h.indices h.stored

theorem Channel.pop_inv (st : Nat → Elem) (h : c.Inv) : (c.pop st).Inv where
  params := by rw [pop_params]; exact h.params
  indices := by rw [pop_params]; exact pop_indicesOk st h.indices
  array := by rw [pop_params]; exact pop_arrayOk st h.array
  stored := by rw [pop_params]; exact pop_stored st h.stored

/-- Under the invariant the free value of a stale element is never answered: a pop that succeeds takes
the first element of the contents away and returns it. -/
theorem Channel.pop_of_inv (st : Nat → Elem) (h : c.Inv) (he : c.fifo.count ≠ 0) :
    ∃ x, (c.pop st).out = { c.out with popped := some x } ∧
      c.fifo.contents c.params = some x :: (c.pop st).fifo.contents c.params := by
  have hcons := contents_eq_cons_pop st he
  rw [Nat.mod_eq_of_lt h.indices.rd_lt] at hcons
  cases hread : c.fifo.mem.read c.fifo.rd with
  | none =>
    rw [hread] at hcons
    exact absurd (hcons ▸ List.mem_cons_self) h.stored
  | some x =>
    rw [hread] at hcons
    refine ⟨x, ?_, hcons⟩
    rw [pop_of_stored st he, Fifo.head_of_stored st hread]

end Invariant

/-! ### A channel as a queue

The queue has neither indices nor stale elements. A channel that meets the invariant simulates it
operation by operation, so its results are functions of what the queue holds. -/

/-- What of a channel R37 lets matter: the constants, the contents and the result signals. -/
structure Queue where
  params : ChanParams
  items : List (Option Elem)
  out : ChanOut

def Channel.queue (c : Channel) : Queue :=
  { params := c.params, items := c.fifo.contents c.params, out := c.out }

/-- `FIFO.PUSH` on the queue (42_fifo.md R150, R151). -/
def Queue.push (x : Elem) (q : Queue) : Queue :=
  if q.items.length = q.params.cap then { q with out := { q.out with pushOk := false } }
  else { q with items := q.items ++ [some (lowBits q.params.w x)],
                out := { q.out with pushOk := true } }

/-- `FIFO.POP` on the queue (42_fifo.md R152, R153). -/
def Queue.pop (q : Queue) : Queue :=
  match q.items with
  | [] => { q with out := { q.out with popped := none } }
  | x :: rest => { q with items := rest, out := { q.out with popped := x } }

/-- An operation on the queue; those of `PIDREG` leave it alone. -/
def Queue.exec (q : Queue) : Instr → Queue
  | .push _ x => q.push x
  | .pop _ => q.pop
  | _ => q

theorem Channel.push_queue {c : Channel} (x : Elem) (h : c.Inv) :
    (c.push x).queue = c.queue.push x := by
  by_cases hf : c.fifo.count = c.params.cap
  · rw [push_of_full x hf]
    simp [queue, Queue.push, hf]
  · have hcontents := push_contents x h.indices hf
    have hout : (c.push x).out = { c.out with pushOk := true } := by rw [push_of_room x hf]
    simp [queue, Queue.push, hf, hcontents, hout]

theorem Channel.pop_queue {c : Channel} (st : Nat → Elem) (h : c.Inv) :
    (c.pop st).queue = c.queue.pop := by
  by_cases he : c.fifo.count = 0
  · rw [pop_of_empty st he]
    simp [queue, Queue.pop, Fifo.contents_of_empty _ he]
  · obtain ⟨x, hout, hcontents⟩ := pop_of_inv st h he
    simp [queue, Queue.pop, hcontents, hout]

/-- One operation on a channel: it completes, keeps the invariant, and does what it does on the
queue. -/
theorem exec_simulates_queue {i : Instr} {ch : Nat} {s : State} {c : Channel}
    (hb : blockOf i = some ch) (hc : s.chans[ch]? = some c) (h : c.Inv) :
    ∃ t d, exec i s = .next t ∧ t.chans[ch]? = some d ∧ d.Inv ∧ d.queue = c.queue.exec i := by
  cases i with
  | push k x =>
    cases hb
    exact ⟨_, c.push x, onChannel_of_some _ hc, getElem?_set_self_of_some _ hc, c.push_inv x h,
      c.push_queue x h⟩
  | pop k =>
    cases hb
    exact ⟨_, c.pop (s.stale ch), onChannel_of_some _ hc, getElem?_set_self_of_some _ hc,
      c.pop_inv _ h, c.pop_queue _ h⟩
  | _ => cases hb

/-- Any sequence of operations on a channel. -/
theorem runOps_simulates_queue {ops : List Instr} {ch : Nat} {s : State} {c : Channel}
    (hops : ∀ i ∈ ops, blockOf i = some ch) (hc : s.chans[ch]? = some c) (h : c.Inv) :
    ∃ t d, runOps ops s = .next t ∧ t.chans[ch]? = some d ∧ d.Inv ∧
      d.queue = ops.foldl Queue.exec c.queue := by
  induction ops generalizing s c with
  | nil => exact ⟨s, c, rfl, hc, h, rfl⟩
  | cons i rest ih =>
    obtain ⟨hi, hrest⟩ := List.forall_mem_cons.mp hops
    obtain ⟨u, d, hu, hd, hdinv, hdq⟩ := exec_simulates_queue hi hc h
    obtain ⟨t, e, ht, he, heinv, heq⟩ := ih hrest hd hdinv
    exact ⟨t, e, andThen_eq_next.mpr ⟨u, hu, ht⟩, he, heinv, by rw [heq, hdq, List.foldl_cons]⟩

/-- Settles O48: both channels simulate one and the same queue. -/
theorem contentsDetermineEveryResult : Obligations.ContentsDetermineEveryResult := by
  intro ops ch s s' c c' hops hc hc' hinv hinv' hparams hcontents hout
  obtain ⟨t, d, ht, hd, -, hq⟩ := runOps_simulates_queue hops hc hinv
  obtain ⟨t', d', ht', hd', -, hq'⟩ := runOps_simulates_queue hops hc' hinv'
  have hstart : c.queue = c'.queue := by simp only [Channel.queue, hparams, ← hcontents, hout]
  have hend : d.queue = d'.queue := by rw [hq, hq', hstart]
  have hitems : d.fifo.contents d.params = d'.fifo.contents d'.params := congrArg Queue.items hend
  have hsignals : d.out = d'.out := congrArg Queue.out hend
  refine ⟨t, t', ht, ht', ?_, ?_, ?_⟩
  · rw [State.pushOk_of_some hd, State.pushOk_of_some hd', hsignals]
  · rw [State.popped_of_some hd, State.popped_of_some hd', hsignals]
  · rw [State.contents_of_some hd, State.contents_of_some hd', hitems]

end Sys2Proof.Machine

/-! PROOFS. The order of the elements of a channel (spec/20_memory.md): what one clock cycle puts in and
takes out, and its sum over any number of cycles. -/

namespace Sys2Proof.Machine

/-! ### Push and pop as a balance -/

section Balance

variable {c : Channel}

/-- The contents after a push: an element is added exactly where `push_ok` says so. -/
theorem Channel.push_balance (x : Elem) (h : c.Inv) :
    (c.push x).fifo.contents (c.push x).params =
      c.fifo.contents c.params ++
        if (c.push x).out.pushOk then [some (lowBits c.params.w x)] else [] := by
  rw [push_params]
  by_cases hf : c.fifo.count = c.params.cap
  · simp [push_of_full x hf]
  · have hok : (c.push x).out.pushOk = true := by rw [push_of_room x hf]
    rw [push_contents x h.indices hf, if_pos hok]

/-- The contents before a pop: the popped element, if there is one, and what is left. -/
theorem Channel.pop_balance (st : Nat → Elem) (h : c.Inv) :
    c.fifo.contents c.params =
      (c.pop st).out.popped.toList.map some ++ (c.pop st).fifo.contents (c.pop st).params := by
  rw [pop_params]
  by_cases he : c.fifo.count = 0
  · simp [pop_of_empty st he]
  · obtain ⟨x, hout, hcontents⟩ := pop_of_inv st h he
    rw [hout, hcontents]
    rfl

@[simp] theorem Channel.push_popped (x : Elem) (c : Channel) :
    (c.push x).out.popped = c.out.popped := by
  unfold push; split <;> rfl

@[simp] theorem Channel.pop_pushOk (st : Nat → Elem) (c : Channel) :
    (c.pop st).out.pushOk = c.out.pushOk := by
  unfold pop; split <;> rfl

/-- On a channel that is not full the combined update is the pop, then the push (42_fifo.md R156). -/
theorem Channel.pushPop_eq_pop_push (st : Nat → Elem) (x : Elem)
    (hf : c.fifo.count ≠ c.params.cap) (hle : c.fifo.count ≤ c.params.cap) :
    c.pushPop st x = (c.pop st).push x := by
  by_cases he : c.fifo.count = 0
  · have hroom : (c.pop st).fifo.count ≠ (c.pop st).params.cap := by
      rwa [pop_of_empty st he]
    rw [pushPop_of_empty st x hf he, push_of_room x hroom, pop_of_empty st he]
  · have hroom : (c.pop st).fifo.count ≠ (c.pop st).params.cap := by
      rw [pop_of_stored st he]
      exact Nat.ne_of_lt (by omega : c.fifo.count - 1 < c.params.cap)
    rw [pushPop_of_both st x hf he, push_of_room x hroom, pop_of_stored st he]
    simp [Nat.sub_add_cancel (Nat.pos_of_ne_zero he)]

/-- On a full channel it is the push, which fails, then the pop. -/
theorem Channel.pushPop_eq_push_pop (st : Nat → Elem) (x : Elem)
    (hf : c.fifo.count = c.params.cap) (he : c.fifo.count ≠ 0) :
    c.pushPop st x = (c.push x).pop st := by
  have hstored : (c.push x).fifo.count ≠ 0 := by rwa [push_of_full x hf]
  rw [pushPop_of_full st x hf he, pop_of_stored st hstored, push_of_full x hf]

/-- Under the invariant the combined update is one of its two serial orders. -/
theorem Channel.pushPop_serial (st : Nat → Elem) (x : Elem) (h : c.Inv) :
    c.pushPop st x = (c.pop st).push x ∨ c.pushPop st x = (c.push x).pop st := by
  by_cases hf : c.fifo.count = c.params.cap
  · have he : c.fifo.count ≠ 0 := hf ▸ Nat.ne_zero_of_lt h.indices.rd_lt
    exact .inr (pushPop_eq_push_pop st x hf he)
  · exact .inl (pushPop_eq_pop_push st x hf h.indices.count_le)

theorem Channel.pushPop_inv (st : Nat → Elem) (x : Elem) (h : c.Inv) : (c.pushPop st x).Inv := by
  obtain he | he := pushPop_serial st x h <;> rw [he]
  · exact push_inv x (pop_inv st h)
  · exact pop_inv st (push_inv x h)

/-- The balance of the combined update, in either order. -/
theorem Channel.pushPop_balance (st : Nat → Elem) (x : Elem) (h : c.Inv) :
    (c.fifo.contents c.params ++
        if (c.pushPop st x).out.pushOk then [some (lowBits c.params.w x)] else []) =
      (c.pushPop st x).out.popped.toList.map some ++
        (c.pushPop st x).fifo.contents (c.pushPop st x).params := by
  obtain he | he := pushPop_serial st x h <;> rw [he]
  · rw [push_balance x (pop_inv st h), push_popped, pop_params, pop_balance st h, pop_params,
      List.append_assoc]
  · rw [← pop_balance st (push_inv x h), push_balance x h, pop_pushOk]

end Balance

/-! ### One cycle of a channel -/

/-- A channel keeps the invariant whatever its two ports present. -/
theorem chanAfter_inv (st : Nat → Elem) (ci : ChanIn) {c : Channel} (h : c.Inv) :
    (chanAfter st ci c).Inv := by
  unfold chanAfter
  split
  · exact c.pushPop_inv st _ h
  · exact c.push_inv _ h
  · exact c.pop_inv st h
  · exact h

/-- The start of a cycle takes back the result signals, of which the invariant says nothing. -/
theorem Channel.quiet_inv {c : Channel} (h : c.Inv) : c.quiet.Inv :=
  { params := h.params, indices := h.indices, array := h.array, stored := h.stored }

/-- One cycle of a channel from the invariant: the signals, taken back at its start, tell exactly what
went in and what came out. -/
theorem chanAfter_balance (st : Nat → Elem) (ci : ChanIn) {c : Channel} (h : c.Inv) :
    (c.fifo.contents c.params ++
        if (chanAfter st ci c.quiet).out.pushOk then [some (lowBits c.params.w ci.push)] else []) =
      (chanAfter st ci c.quiet).out.popped.toList.map some ++
        (chanAfter st ci c.quiet).fifo.contents (chanAfter st ci c.quiet).params := by
  have hq : c.quiet.Inv := Channel.quiet_inv h
  have hdata : lowBits c.params.w (ci.push % 2 ^ c.params.w) = lowBits c.params.w ci.push :=
    Nat.mod_mod _ _
  rw [← hdata]
  unfold chanAfter
  split
  · exact Channel.pushPop_balance (c := c.quiet) st _ hq
  · rw [Channel.push_popped]
    exact (Channel.push_balance _ hq).symm
  · simpa using Channel.pop_balance st hq
  · simp

/-! ### One clock cycle without reset -/

/-- What the ports of channel `ch` carry in the coming cycle. -/
def State.chanIn (s : State) (ch : Nat) : ChanIn := (fetchInputs s).chans[ch]?.getD ChanIn.quiet

@[simp] theorem chanAfter_quiet (st : Nat → Elem) (c : Channel) :
    chanAfter st ChanIn.quiet c = c := by
  simp [chanAfter, ChanIn.quiet]

theorem State.pushData_of_some {s : State} {ch : Nat} {c : Channel} (h : s.chans[ch]? = some c) :
    s.pushData ch = lowBits c.params.w (s.chanIn ch).push := by
  cases hci : (fetchInputs s).chans[ch]? <;>
    simp [State.pushData, State.chanIn, h, hci, ChanIn.quiet, lowBits]

section CycleWithoutReset

variable {s t : State} {ch : Nat}

theorem fetchInputs_rst_of_noReset (h : s.noReset = true) : (fetchInputs s).rst = false := by
  cases hin : s.inputs with
  | nil => simp [fetchInputs, hin, PortInputs.quiet]
  | cons c rest =>
    obtain ⟨hrst, -⟩ : c.rst = false ∧ _ := by simpa [State.noReset, hin] using h
    simpa [fetchInputs, hin] using hrst

theorem noReset_of_inputs_tail (ht : t.inputs = s.inputs.tail) (h : s.noReset = true) :
    t.noReset = true := by
  rw [State.noReset, List.all_eq_true] at h ⊢
  exact fun c hc => h c (List.mem_of_mem_tail (ht ▸ hc))

/-- Everything a cycle without reset does to the inputs and to the channels. -/
theorem step_next_of_noReset (hn : s.noReset = true) (h : step s = .next t) :
    t.inputs = s.inputs.tail ∧
      ∀ ch, t.chans[ch]? =
        s.chans[ch]?.map fun c => chanAfter (s.stale ch) (s.chanIn ch) c.quiet := by
  obtain ⟨-, hlen, ⟨hrst, -⟩ | ⟨-, -, hops⟩⟩ := step_next h
  · rw [fetchInputs_rst_of_noReset hn] at hrst
    cases hrst
  obtain ⟨u, hpid, hchans⟩ := andThen_eq_next.mp hops
  obtain ⟨r, rfl⟩ := pidCycle_next hpid
  obtain ⟨chans, hnext, -, hother, hsame⟩ :=
    chanCycles_next (ch := 0) (s := { s.started with regs := r }) (by simpa using hlen)
  obtain rfl := Host.Outcome.next.inj (hnext.symm.trans hchans)
  refine ⟨rfl, fun ch => ?_⟩
  cases hc : s.chans[ch]? with
  | none =>
    have hbeyond : s.chans.length ≤ ch := List.getElem?_eq_none_iff.mp hc
    simpa [hc] using hother ch (.inr (by omega))
  | some c =>
    cases hci : (fetchInputs s).chans[ch]? with
    | none =>
      have hbeyond : (fetchInputs s).chans.length ≤ ch := List.getElem?_eq_none_iff.mp hci
      simpa [State.chanIn, hci, hc] using hother ch (.inr (by omega))
    | some ci =>
      have hself := hsame ch ci c.quiet hci (by simp [hc])
      simpa [State.chanIn, hci, State.stale] using hself

theorem step_keeps_channelInv (hinv : ∀ c ∈ s.chans, c.Inv) (hn : s.noReset = true)
    (h : step s = .next t) : ∀ d ∈ t.chans, d.Inv := by
  intro d hd
  obtain ⟨-, hchans⟩ := step_next_of_noReset hn h
  obtain ⟨ch, hch⟩ := List.mem_iff_getElem?.mp hd
  obtain ⟨c, hc, rfl⟩ := Option.map_eq_some_iff.mp ((hchans ch).symm.trans hch)
  exact chanAfter_inv _ _ (Channel.quiet_inv (hinv c (List.mem_of_getElem? hc)))

/-- R68 for one cycle; a channel that does not exist holds, takes and answers nothing. -/
theorem step_balance (hinv : ∀ c ∈ s.chans, c.Inv) (hn : s.noReset = true) (h : step s = .next t) :
    s.contents ch ++ (if t.pushOk ch then [s.pushData ch] else []).map some =
      (t.popped ch).toList.map some ++ t.contents ch := by
  have ht := (step_next_of_noReset hn h).2 ch
  cases hc : s.chans[ch]? with
  | none =>
    rw [hc, Option.map_none] at ht
    simp [State.contents, State.pushOk, State.popped, hc, ht]
  | some c =>
    rw [hc, Option.map_some] at ht
    have hbal := chanAfter_balance (s.stale ch) (s.chanIn ch) (hinv c (List.mem_of_getElem? hc))
    simpa [State.contents_of_some hc, State.contents_of_some ht, State.pushOk_of_some ht,
      State.popped_of_some ht, State.pushData_of_some hc, apply_ite] using hbal

end CycleWithoutReset

/-! ### Any number of cycles (R68) -/

section Along

variable {s t : State} {ch k : Nat}

theorem pushesAlong_succ (h : step s = .next t) :
    pushesAlong ch (k + 1) s =
      (if t.pushOk ch then [s.pushData ch] else []) ++ pushesAlong ch k t := by
  rw [pushesAlong, h]

theorem popsAlong_succ (h : step s = .next t) :
    popsAlong ch (k + 1) s = (t.popped ch).toList ++ popsAlong ch k t := by
  rw [popsAlong, h]

/-- The balances of the cycles, added up. -/
theorem runCycles_balance (hinv : ∀ c ∈ s.chans, c.Inv) (hn : s.noReset = true)
    (h : runCycles k s = .next t) :
    s.contents ch ++ (pushesAlong ch k s).map some =
      (popsAlong ch k s).map some ++ t.contents ch := by
  induction k generalizing s with
  | zero =>
    obtain rfl := Host.Outcome.next.inj h
    simp [pushesAlong, popsAlong]
  | succ k ih =>
    obtain ⟨u, hu, hrest⟩ := andThen_eq_next.mp h
    have hun : u.noReset = true := noReset_of_inputs_tail (step_next_of_noReset hn hu).1 hn
    have hstep := step_balance (ch := ch) hinv hn hu
    have hlater := ih (step_keeps_channelInv hinv hn hu) hun hrest
    rw [pushesAlong_succ hu, popsAlong_succ hu, List.map_append, List.map_append,
      ← List.append_assoc, hstep, List.append_assoc, hlater, List.append_assoc]

end Along

/-- Settles O47, by induction on the number of cycles. -/
theorem elementsLeaveInTheOrderPushed : Obligations.ElementsLeaveInTheOrderPushed :=
  fun _ _ _ _ hinv hn hrun => runCycles_balance hinv.channels hn hrun

end Sys2Proof.Machine

/-! PROOFS. The operation codes of format H (spec/30_encoding.md R84). -/

namespace Sys2Proof

/-- On the port's `NW + 4` wires the field `op` is all of the word above `data`. -/
theorem cmdOp_toNat_of_lt {nw c : Nat} (h : c < 2 ^ (nw + 4)) : (cmdOp nw c).toNat = c / 2 ^ nw := by
  have hcode : c / 2 ^ nw < 2 ^ 4 := Nat.div_lt_of_lt_mul (by rwa [Nat.pow_add] at h)
  rw [cmdOp_toNat, Nat.mod_eq_of_lt hcode]

/-- Settles O4: codes 0 to 7 each select their row of the decoder, and what is left is reserved. -/
theorem operationCodeSelectsTheCommand : Obligations.OperationCodeSelectsTheCommand := by
  rintro nw c _ hc rfl
  have hop : (cmdOp nw c).toNat = c / 2 ^ nw := cmdOp_toNat_of_lt hc
  refine ⟨?nop, ?reset, ?setSp, ?setKp, ?setKi, ?setKd, ?wrAct, ?wrPv, ?reserved⟩
  case reserved =>
    intro hcode
    exact ⟨cmdOp nw c, decodeCmd_of_reserved (by rwa [← cmdOp_toNat, hop]), hop⟩
  all_goals
    intro hcode
    simp only [decodeCmd, hop, hcode, cmdData]

end Sys2Proof

/-! PROOFS. The tick (spec/40_pid_tick.md): the near-zero gate, the values it writes, their ranges, and
the registers they are a function of. -/

namespace Sys2Proof.Machine

/-! ### What `PID.TICK` does to the state (R110, R111, R117, R122) -/

/-- The local values of a state's tick, under the profile the state holds. -/
def State.locals (s : State) : TickLocals Nat := tickLocals s.arith s.params s.regs

/-- A NaN among them. -/
def State.localsNaN (s : State) : Bool := s.locals.hasNaN s.arith

/-- The state after the three writes of a tick (R117). -/
def State.ticked (s : State) : State :=
  { s with regs := { s.regs with integral := s.locals.i1, lastError := s.locals.e,
                                 act := s.locals.out } }

/-- What `PID.TICK` answers: the registers of `pidTick`, or its fault. -/
theorem exec_tick (s : State) :
    exec .tick s = regsOutcome s (pidTick s.arith s.params s.regs) := by
  show execTick s = _
  unfold execTick
  cases pidTick s.arith s.params s.regs <;> rfl

theorem exec_tick_of_gated {s : State} (h : s.lockedOut = true) : exec .tick s = .next s := by
  rw [exec_tick, pidTick_of_gated h]
  rfl

theorem exec_tick_of_nan {s : State} (h : s.lockedOut = false) (hn : s.localsNaN = true) :
    exec .tick s = .fault .nanTick := by
  rw [exec_tick, pidTick_of_nan h hn]
  rfl

theorem exec_tick_of_run {s : State} (h : s.lockedOut = false) (hn : s.localsNaN = false) :
    exec .tick s = .next s.ticked := by
  rw [exec_tick, pidTick_of_run h hn]
  rfl

/-- Everything a tick that completes can have done. -/
theorem exec_tick_next {s t : State} (h : exec .tick s = .next t) :
    (s.lockedOut = true ∧ t = s) ∨
      (s.lockedOut = false ∧ s.localsNaN = false ∧ t = s.ticked) := by
  cases hg : s.lockedOut with
  | true =>
    rw [exec_tick_of_gated hg] at h
    exact .inl ⟨rfl, (Host.Outcome.next.inj h).symm⟩
  | false =>
    cases hn : s.localsNaN with
    | true => rw [exec_tick_of_nan hg hn] at h; cases h
    | false =>
      rw [exec_tick_of_run hg hn] at h
      exact .inr ⟨rfl, rfl, (Host.Outcome.next.inj h).symm⟩

/-- Exactly the ungated ticks with a NaN among their values are the fault. -/
theorem exec_tick_fault_iff (s : State) :
    exec .tick s = .fault .nanTick ↔ s.lockedOut = false ∧ s.localsNaN = true := by
  refine ⟨fun h => ?_, fun ⟨hg, hn⟩ => exec_tick_of_nan hg hn⟩
  cases hg : s.lockedOut with
  | true => rw [exec_tick_of_gated hg] at h; cases h
  | false =>
    cases hn : s.localsNaN with
    | true => exact ⟨rfl, rfl⟩
    | false => rw [exec_tick_of_run hg hn] at h; cases h

/-! ### The near-zero gate (R111) -/

theorem magBits_fabs (x : Num32) : magBits (fabs x) = magBits x := by
  have hmask : 0x7FFFFFFF = 2 ^ 31 - 1 := rfl
  simp only [magBits, fabs, BitVec.toNat_and, BitVec.toNat_ofNat]
  rw [Nat.mod_eq_of_lt (show 0x7FFFFFFF < 2 ^ 32 by decide), hmask, Nat.and_two_pow_sub_one_eq_mod,
    Nat.mod_mod]

theorem signOf_fabs (x : Num32) : signOf (fabs x) = false := by
  simp [signOf, fabs]

theorem isNaN_fabs (x : Num32) : isNaN (fabs x) = isNaN x := by
  simp [isNaN, magBits_fabs]

/-- No magnitude lies below the positive zero. -/
theorem fabs_not_flt_zero (x : Num32) : flt (fabs x) 0x00000000#32 = false := by
  have hzero : fltKey 0x00000000#32 = 0 := by decide
  have hkey : 0 ≤ fltKey (fabs x) := by simp [fltKey, signOf_fabs]
  rw [Bool.eq_false_iff, Ne, flt_iff, hzero]
  rintro ⟨-, -, hlt⟩
  omega

/-- The lockout condition of `F32`, on the values the registers encode. -/
theorem lockedOut_f32 {s : State} (h : s.num = .f32) :
    s.lockedOut = flt (fabs (dec32 s.regs.act)) (dec32 s.params.eps) := by
  show tickGated (profileArith s.num) s.params s.regs = _
  rw [h, tickGated_f32]
  rfl

/-- Settles O22: the gate is the definition of the lockout; the order of `F32` decides its edges. -/
theorem nearZeroGateIsStrictAndRaw : Obligations.NearZeroGateIsStrictAndRaw := by
  refine ⟨fun s => exec_tick_of_gated, fun s => rfl, fun s => lockedOut_f32, ?equal, ?zeroAct,
    ?zeroEps, ?nan⟩
  case equal =>
    rintro x _ rfl
    exact flt_irrefl _
  case zeroAct =>
    intro eps h
    have hpos : fabs 0x00000000#32 = 0x00000000#32 := by decide
    have hneg : fabs 0x80000000#32 = 0x00000000#32 := by decide
    rw [hpos, hneg]
    exact ⟨h, h⟩
  case zeroEps =>
    exact fun x => ⟨fabs_not_flt_zero x, (flt_negZero_right _).trans (fabs_not_flt_zero x)⟩
  case nan =>
    exact fun x eps h => flt_nan_left eps ((isNaN_fabs x).trans h)

/-! ### The values a tick writes (R110, R118) -/

/-- Local values that are no NaN where the profile is `F32` hold no NaN under any profile. -/
theorem TickLocals.hasNaN_eq_false {P : Profile} {l : TickLocals Nat}
    (h : P = .f32 → isNaN (Machine.dec32 l.a) = false ∧ isNaN (Machine.dec32 l.e) = false ∧
      isNaN (Machine.dec32 l.i1) = false ∧ isNaN (Machine.dec32 l.d) = false ∧
      isNaN (Machine.dec32 l.out) = false) :
    l.hasNaN (profileArith P) = false := by
  cases P with
  | f32 => simpa [TickLocals.hasNaN, and_assoc] using h rfl
  | other nw => exact TickLocals.hasNaN_other nw l

/-- Settles O23: the pseudocode's values are the local values of the tick. -/
theorem tickComputesThePseudocode : Obligations.TickComputesThePseudocode := by
  rintro s _ a e i1 d out rfl
  refine ⟨exec_tick_of_gated, ?_⟩
  rintro hgate rfl rfl rfl rfl rfl hnan
  have hlocals : s.localsNaN = false := TickLocals.hasNaN_eq_false (l := s.locals) hnan
  exact exec_tick_of_run hgate hlocals

/-- Settles O26: the value written is a clamp between the input limits. -/
theorem writtenActuationWithinLimits : Obligations.WrittenActuationWithinLimits := by
  intro s t hord hok hgate h
  obtain ⟨hparams, -⟩ := s.configOk_iff.mp hok
  obtain ⟨-, hin, -⟩ := (paramsOk_iff _ _).mp hparams
  rcases exec_tick_next h with ⟨hgated, -⟩ | ⟨-, -, rfl⟩
  · rw [hgate] at hgated; cases hgated
  · exact clamp_between_of_irrefl _ hord.irrefl (not_flt_of_numLe hin)

/-! ### The range of `INTEGRAL` (R119) -/

/-- What an operation that completes does to `INTEGRAL`: it keeps it, or it is the reset command or a
tick. The constants stay. -/
theorem exec_next_integral {i : Instr} {s t : State} (h : exec i s = .next t) :
    t.num = s.num ∧ t.params = s.params ∧
      (t.regs.integral = s.regs.integral ∨ t.regs.integral = s.arith.zero ∨
        (s.localsNaN = false ∧ t.regs.integral = s.locals.i1)) := by
  cases i with
  | tick =>
    rcases exec_tick_next h with ⟨-, rfl⟩ | ⟨-, hn, rfl⟩
    · exact ⟨rfl, rfl, .inl rfl⟩
    · exact ⟨rfl, rfl, .inr (.inr ⟨hn, rfl⟩)⟩
  | reset =>
    obtain rfl := Host.Outcome.next.inj h
    exact ⟨rfl, rfl, .inr (.inl rfl)⟩
  | push ch item =>
    obtain ⟨c, -, rfl⟩ := onChannel_next h
    exact ⟨rfl, rfl, .inl rfl⟩
  | pop ch =>
    obtain ⟨c, -, rfl⟩ := onChannel_next h
    exact ⟨rfl, rfl, .inl rfl⟩
  | _ =>
    obtain rfl := Host.Outcome.next.inj h
    exact ⟨rfl, rfl, .inl rfl⟩

/-- `a <= b` says that `a` is a number. -/
theorem isNaN_left_of_numLe {N : NumProfile α} {a b : α} (h : numLe N a b = true) :
    N.isNaN a = false := by
  simp only [numLe, Bool.and_eq_true, Bool.not_eq_true'] at h
  obtain ⟨⟨ha, -⟩, -⟩ := h
  exact ha

/-- The integrator's new value is among those R122 tests. -/
theorem TickLocals.isNaN_i1 {N : NumProfile α} {l : TickLocals α} (h : l.hasNaN N = false) :
    N.isNaN l.i1 = false := by
  simp only [TickLocals.hasNaN, Bool.or_eq_false_iff] at h
  obtain ⟨⟨⟨-, hi1⟩, -⟩, -⟩ := h
  exact hi1

/-- The zero of a profile lies within the integrator's limits (00_scope.md R10). -/
theorem zero_integralInRange {N : NumProfile α} {p : PidParams α} (h : paramsOk N p = true) :
    N.isNaN N.zero = false ∧ N.flt N.zero p.intMin = false ∧ N.flt p.intMax N.zero = false := by
  obtain ⟨-, -, -, hlow, hhigh, -⟩ := (paramsOk_iff N p).mp h
  exact ⟨isNaN_left_of_numLe hhigh, not_flt_of_numLe hlow, not_flt_of_numLe hhigh⟩

/-- Settles O28: zero and every value of the integrator's clamp are in range, and nothing else is
written. -/
theorem integralStaysInRange : Obligations.IntegralStaysInRange := by
  intro s t i hord hok hrange h
  obtain ⟨hparams, -⟩ := s.configOk_iff.mp hok
  obtain ⟨hnum, hp, hcases⟩ := exec_next_integral h
  unfold IntegralInRange State.arith
  rw [hnum, hp]
  rcases hcases with hkept | hzero | ⟨hnan, hi1⟩
  · rw [hkept]; exact hrange
  · rw [hzero]; exact zero_integralInRange hparams
  · obtain ⟨-, -, hint, -⟩ := (paramsOk_iff _ _).mp hparams
    rw [hi1]
    exact ⟨TickLocals.isNaN_i1 hnan,
      clamp_between_of_irrefl _ hord.irrefl (not_flt_of_numLe hint)⟩

/-! ### What a tick depends on (R120) -/

/-- Settles O30: equal registers and constants give the same gate and the same local values. -/
theorem tickIsAFunctionOfSevenRegisters : Obligations.TickIsAFunctionOfSevenRegisters := by
  intro s s' hnum hperiod hinMin hinMax hintMin hintMax heps hact hsp hintegral hlast hkp hki hkd
  have hgate : s'.lockedOut = s.lockedOut := by
    simp only [State.lockedOut, tickGated, State.arith, hnum, hact, heps]
  have hlocals : s'.locals = s.locals := by
    simp only [State.locals, tickLocals, tickInput, tickError, tickIntegral, tickDerivative,
      tickOutput, State.arith, hnum, hperiod, hinMin, hinMax, hintMin, hintMax, hact, hsp, hintegral,
      hlast, hkp, hki, hkd]
  have hnan : s'.localsNaN = s.localsNaN := by
    simp only [State.localsNaN, State.arith, hlocals, hnum]
  refine ⟨by rw [exec_tick_fault_iff, exec_tick_fault_iff, hgate, hnan], fun t h => ?_⟩
  rcases exec_tick_next h with ⟨hg, rfl⟩ | ⟨hg, hn, rfl⟩
  · exact ⟨s', exec_tick_of_gated (hgate.trans hg), hintegral.symm, hlast.symm, hact.symm, rfl, rfl⟩
  · exact ⟨s'.ticked, exec_tick_of_run (hgate.trans hg) (hnan.trans hn),
      congrArg TickLocals.i1 hlocals, congrArg TickLocals.e hlocals, congrArg TickLocals.out hlocals,
      rfl, rfl⟩

end Sys2Proof.Machine

/-! PROOFS. The host commands (spec/41_pid_host.md): the words that carry them, what each of them writes,
and a command beside a tick in one cycle. -/

namespace Sys2Proof

/-! ### The word of each operation code (spec/30_encoding.md R84), whatever stands in `data` -/

section CommandWords

variable {nw d : Nat} (h : d < 2 ^ nw)

include h

theorem decodeCmd_cmdWord_nop : decodeCmd nw (cmdWord nw 0x0#4 d) = .op .nop := by
  simp [decodeCmd, h]

theorem decodeCmd_cmdWord_reset : decodeCmd nw (cmdWord nw 0x1#4 d) = .op .reset := by
  simp [decodeCmd, h]

theorem decodeCmd_cmdWord_setSp : decodeCmd nw (cmdWord nw 0x2#4 d) = .op (.setSp d) := by
  simp [decodeCmd, h]

theorem decodeCmd_cmdWord_setKp : decodeCmd nw (cmdWord nw 0x3#4 d) = .op (.setKp d) := by
  simp [decodeCmd, h]

theorem decodeCmd_cmdWord_setKi : decodeCmd nw (cmdWord nw 0x4#4 d) = .op (.setKi d) := by
  simp [decodeCmd, h]

theorem decodeCmd_cmdWord_setKd : decodeCmd nw (cmdWord nw 0x5#4 d) = .op (.setKd d) := by
  simp [decodeCmd, h]

theorem decodeCmd_cmdWord_wrAct : decodeCmd nw (cmdWord nw 0x6#4 d) = .op (.wrAct d) := by
  simp [decodeCmd, h]

theorem decodeCmd_cmdWord_wrPv : decodeCmd nw (cmdWord nw 0x7#4 d) = .op (.wrPv d) := by
  simp [decodeCmd, h]

end CommandWords

end Sys2Proof

namespace Sys2Proof.Machine

/-! ### What each command writes: its own register, with an operand of `NW` bits as it is -/

section Writes

variable {s : State} {v : Nat} (h : v < 2 ^ s.num.nw)

include h

theorem exec_setSp_of_lt : exec (.setSp v) s = .next { s with regs := { s.regs with sp := v } } := by
  simp [exec, execSetSp, State.operand_of_lt h]

theorem exec_setKp_of_lt : exec (.setKp v) s = .next { s with regs := { s.regs with kp := v } } := by
  simp [exec, execSetKp, State.operand_of_lt h]

theorem exec_setKi_of_lt : exec (.setKi v) s = .next { s with regs := { s.regs with ki := v } } := by
  simp [exec, execSetKi, State.operand_of_lt h]

theorem exec_setKd_of_lt : exec (.setKd v) s = .next { s with regs := { s.regs with kd := v } } := by
  simp [exec, execSetKd, State.operand_of_lt h]

theorem exec_wrAct_of_lt : exec (.wrAct v) s = .next { s with regs := { s.regs with act := v } } := by
  simp [exec, execWrAct, State.operand_of_lt h]

theorem exec_wrPv_of_lt : exec (.wrPv v) s = .next { s with regs := { s.regs with pv := v } } := by
  simp [exec, execWrPv, State.operand_of_lt h]

end Writes

theorem exec_nop (s : State) : exec .nop s = .next s := rfl

theorem exec_reset (s : State) :
    exec .reset s =
      .next { s with regs := { s.regs with integral := s.arith.zero,
                                           lastError := s.arith.zero } } := rfl

/-- Settles O14: the decoder does not look at the data of code 0. -/
theorem nopReadsAndWritesNoState : Obligations.NopReadsAndWritesNoState :=
  ⟨fun _ _ => decodeCmd_cmdWord_nop, exec_nop⟩

/-- Settles O17: the row of each code, and the one write of each command. -/
theorem setKpAndSetKdWriteOneRegister : Obligations.SetKpAndSetKdWriteOneRegister :=
  ⟨fun _ _ => decodeCmd_cmdWord_setKp, fun _ _ => decodeCmd_cmdWord_setKd, rfl, rfl,
    fun _ _ h => ⟨exec_setKp_of_lt h, exec_setKd_of_lt h⟩⟩

/-- Settles O20: the gate and the input clamp of the next tick both read the raw register. -/
theorem wrActStoresTheValueUnclamped : Obligations.WrActStoresTheValueUnclamped :=
  ⟨fun _ _ => decodeCmd_cmdWord_wrAct, rfl, fun _ _ h => ⟨_, exec_wrAct_of_lt h, rfl, rfl, rfl⟩⟩

/-! ### The cycle that is presented -/

/-- In a good configuration the coming cycle runs the inputs it is presented. -/
theorem step_present {s : State} (h : s.configOk = true) (p : PortInputs) :
    step (s.present p) = runCycle p s.consumeInputs :=
  step_of_config (s := s.present p) h

/-! ### A reserved code (R139) -/

/-- A reserved word does what `PID.NOP` does. -/
theorem runDecoded_of_reserved {nw c : Nat} (hc : c < 2 ^ (nw + 4)) (hcode : 0x8 ≤ c / 2 ^ nw) :
    runDecoded (decodeCmd nw c) = exec .nop := by
  have hop : 8 ≤ c / 2 ^ nw % 2 ^ 4 := by rwa [← cmdOp_toNat, cmdOp_toNat_of_lt hc]
  rw [decodeCmd_of_reserved hop]
  rfl

/-- `PIDREG` sees no more of `cmd` than what its word does. -/
theorem pidCycle_congr_cmd {s : State} {c c' : Nat} (p : PortInputs)
    (h : runDecoded (decodeCmd s.num.nw c) = runDecoded (decodeCmd s.num.nw c')) :
    pidCycle { p with cmd := c } s = pidCycle { p with cmd := c' } s := by
  have hport : runDecoded (cmdPort s.num.nw { p with cmd := c }) =
      runDecoded (cmdPort s.num.nw { p with cmd := c' }) := by
    cases p.cmdValid with
    | false => rfl
    | true => exact h
  rw [pidCycle, pidCycle, hport]

/-- Nor does the cycle: its other conditions read `cmd_valid` alone. -/
theorem step_congr_cmd {s : State} {c c' : Nat} (p : PortInputs)
    (h : runDecoded (decodeCmd s.num.nw c) = runDecoded (decodeCmd s.num.nw c')) :
    step (s.present { p with cmd := c }) = step (s.present { p with cmd := c' }) := by
  have hops : operationsCycle { p with cmd := c } s.consumeInputs =
      operationsCycle { p with cmd := c' } s.consumeInputs :=
    congrArg (andThen · (chanCycles 0 p.chans)) (pidCycle_congr_cmd (s := s.started) p h)
  have hrun : runCycle { p with cmd := c } s.consumeInputs =
      runCycle { p with cmd := c' } s.consumeInputs := by
    rw [runCycle, runCycle, hops]
    rfl
  cases hok : s.configOk with
  | false =>
    rw [step_of_bad_config (s := s.present _) hok, step_of_bad_config (s := s.present _) hok]
  | true => rw [step_present hok, step_present hok, hrun]

/-- Settles O5: a reserved word and a `PID.NOP` word do the same, and the cycle sees no more of them. -/
theorem reservedCodeActsAsNop : Obligations.ReservedCodeActsAsNop := by
  intro s p c d hc hcode hd
  have hres := runDecoded_of_reserved hc hcode
  refine ⟨congrFun hres s, step_congr_cmd p ?_⟩
  rw [hres, decodeCmd_cmdWord_nop hd]
  rfl

/-! ### `PV` (R138) -/

/-- The state with `PV` replaced. -/
def State.withPv (x : Nat) (s : State) : State := { s with regs := { s.regs with pv := x } }

theorem exec_wrPv_withPv (s : State) (v : Nat) :
    exec (.wrPv v) s = .next (s.withPv (s.operand v)) := rfl

/-- A tick does not read `PV` and does not write it. -/
theorem exec_wrPv_comm_tick (s : State) (v : Nat) :
    andThen (exec (.wrPv v) s) (exec .tick) = andThen (exec .tick s) (exec (.wrPv v)) := by
  rw [exec_wrPv_withPv, andThen_next]
  cases hg : s.lockedOut with
  | true => rw [exec_tick_of_gated hg]; exact exec_tick_of_gated (s := s.withPv _) hg
  | false =>
    cases hn : s.localsNaN with
    | true => rw [exec_tick_of_nan hg hn]; exact exec_tick_of_nan (s := s.withPv _) hg hn
    | false => rw [exec_tick_of_run hg hn]; exact exec_tick_of_run (s := s.withPv _) hg hn

/-- Nor does an operation of a channel, the refusal of one that does not exist included. -/
theorem exec_wrPv_comm_chan {i : Instr} {ch : Nat} (s : State) (v : Nat) (hi : blockOf i = some ch) :
    andThen (exec (.wrPv v) s) (exec i) = andThen (exec i s) (exec (.wrPv v)) := by
  cases hc : s.chans[ch]? with
  | some c => exact exec_comm_pid_chan rfl hi hc
  | none =>
    obtain ⟨f, hf⟩ := exec_of_blockOf_some hi
    rw [hf, onChannel_of_none _ hc]
    exact (hf _).trans (onChannel_of_none _ hc)

/-- Settles O21: the tick and the channels by the two commutations; every other command writes a
register of its own. -/
theorem processVariableReachesNoOperation : Obligations.ProcessVariableReachesNoOperation := by
  refine ⟨fun _ _ => decodeCmd_cmdWord_wrPv, rfl, fun _ _ => exec_wrPv_of_lt, fun s v i hi => ?_⟩
  cases i with
  | wrPv u => exact absurd rfl (hi u)
  | tick => exact exec_wrPv_comm_tick s v
  | push ch item => exact exec_wrPv_comm_chan s v rfl
  | pop ch => exact exec_wrPv_comm_chan s v rfl
  | nop | reset | setSp _ | setKp _ | setKi _ | setKd _ | wrAct _ => rfl

/-! ### A tick and a command in one cycle (R141) -/

theorem andThen_next_right (o : Result) : andThen o .next = o := by
  cases o <;> rfl

section TickAndCommand

variable {s : State} (hok : s.configOk = true) (hready : s.resetSeen = true)

include hok hready

/-- The cycle is the tick, then whatever the command word does. -/
theorem step_tickCommandCycle (c : Nat) :
    step (s.present (tickCommandCycle c)) =
      andThen (exec .tick s.started) (runDecoded (decodeCmd s.num.nw c)) :=
  calc step (s.present (tickCommandCycle c))
    _ = runCycle (tickCommandCycle c) s.consumeInputs := step_present hok _
    _ = operationsCycle (tickCommandCycle c) s.consumeInputs :=
        runCycle_of_ops (Nat.zero_le _) rfl hready
    _ = pidCycle (tickCommandCycle c) s.started := andThen_next_right _

/-- Where the tick answers `u`, the command acts on `u`. -/
theorem step_tickCommandCycle_of_tick {u : State} {c : Nat} {i : Instr}
    (htick : exec .tick s.started = .next u) (hc : decodeCmd s.num.nw c = .op i) :
    step (s.present (tickCommandCycle c)) = exec i u := by
  rw [step_tickCommandCycle hok hready, htick, andThen_next, hc, runDecoded_op]

end TickAndCommand

/-- Settles O9: each command's own write, on the state the tick leaves. -/
theorem tickThenCommandInOneCycle : Obligations.TickThenCommandInOneCycle := by
  intro s hok hready
  refine ⟨step_tickCommandCycle hok hready, fun u d v htick hd hv => ?_⟩
  have hstep {c : Nat} {i : Instr} (hc : decodeCmd s.num.nw c = .op i) :=
    step_tickCommandCycle_of_tick hok hready htick hc
  obtain ⟨r, rfl⟩ := exec_next_of_blockOf_none rfl htick
  exact ⟨(hstep (decodeCmd_cmdWord_reset hd)).trans (exec_reset _),
    (hstep (decodeCmd_cmdWord_setSp hv)).trans (exec_setSp_of_lt hv),
    (hstep (decodeCmd_cmdWord_setKp hv)).trans (exec_setKp_of_lt hv),
    (hstep (decodeCmd_cmdWord_setKi hv)).trans (exec_setKi_of_lt hv),
    (hstep (decodeCmd_cmdWord_setKd hv)).trans (exec_setKd_of_lt hv),
    (hstep (decodeCmd_cmdWord_wrAct hv)).trans (exec_wrAct_of_lt hv),
    (hstep (decodeCmd_cmdWord_wrPv hv)).trans (exec_wrPv_of_lt hv)⟩

end Sys2Proof.Machine

/-! PROOFS. The operations of a channel (spec/42_fifo.md): those that fail, a push and a pop in one
cycle, and pushes beyond the capacity. -/

namespace Sys2Proof.Machine

/-! ### An operation on a channel that exists -/

section Exec

variable {s : State} {ch : Nat} {c : Channel} (hc : s.chans[ch]? = some c)

include hc

theorem exec_push_of_some (item : Elem) :
    exec (.push ch item) s = .next { s with chans := s.chans.set ch (c.push item) } :=
  onChannel_of_some _ hc

theorem exec_pop_of_some :
    exec (.pop ch) s = .next { s with chans := s.chans.set ch (c.pop (s.stale ch)) } :=
  onChannel_of_some _ hc

theorem execPushPop_of_some (item : Elem) :
    execPushPop ch item s =
      .next { s with chans := s.chans.set ch (c.pushPop (s.stale ch) item) } :=
  onChannel_of_some _ hc

theorem exec_push_then_pop (item : Elem) :
    andThen (exec (.push ch item) s) (exec (.pop ch)) =
      .next { s with chans := s.chans.set ch ((c.push item).pop (s.stale ch)) } := by
  rw [exec_push_of_some hc, andThen_next, exec_pop_of_some (getElem?_set_self_of_some _ hc),
    List.set_set]
  rfl

theorem exec_pop_then_push (item : Elem) :
    andThen (exec (.pop ch) s) (exec (.push ch item)) =
      .next { s with chans := s.chans.set ch ((c.pop (s.stale ch)).push item) } := by
  rw [exec_pop_of_some hc, andThen_next, exec_push_of_some (getElem?_set_self_of_some _ hc),
    List.set_set]

end Exec

/-! ### Operations that fail (R151, R153) -/

section Failing

variable {s : State} {ch : Nat} {c : Channel}

/-- A failed push clears `push_ok` and touches nothing else in the state. -/
theorem exec_push_of_full (item : Elem) (hc : s.chans[ch]? = some c)
    (hf : c.fifo.count = c.params.cap) :
    exec (.push ch item) s =
      .next
        { s with chans := s.chans.set ch { c with out := { c.out with pushOk := false } } } := by
  rw [exec_push_of_some hc, Channel.push_of_full item hf]

/-- A failed pop answers "empty" and touches nothing else in the state. -/
theorem exec_pop_of_empty (hc : s.chans[ch]? = some c) (he : c.fifo.count = 0) :
    exec (.pop ch) s =
      .next { s with chans := s.chans.set ch { c with out := { c.out with popped := none } } } := by
  rw [exec_pop_of_some hc, Channel.pop_of_empty _ he]

/-- Failed pops, repeated, do what one of them does. -/
theorem runOps_replicate_pop_of_empty (n : Nat) (hc : s.chans[ch]? = some c)
    (he : c.fifo.count = 0) :
    runOps (List.replicate (n + 1) (.pop ch)) s = exec (.pop ch) s := by
  induction n generalizing s c with
  | zero => exact andThen_next_right _
  | succ n ih =>
    have hc' := getElem?_set_self_of_some { c with out := { c.out with popped := none } } hc
    rw [List.replicate_succ, runOps, exec_pop_of_empty hc he, andThen_next, ih hc' (by exact he),
      exec_pop_of_empty hc' (by exact he), List.set_set]

end Failing

/-- Settles O39: the state after a failed push, written out. -/
theorem pushIntoFullDropsTheNewest : Obligations.PushIntoFullDropsTheNewest := by
  intro s ch item c hc hf
  exact ⟨_, _, exec_push_of_full item hc hf, getElem?_set_self_of_some _ hc, rfl, rfl, rfl, rfl,
    fun _ hk => List.getElem?_set_ne hk.symm, rfl, rfl, rfl, rfl, rfl, rfl⟩

/-- Settles O41: any number of failed pops is one of them, whose state is written out. -/
theorem popFromEmptyChangesNothing : Obligations.PopFromEmptyChangesNothing := by
  intro s ch c n hc he
  have hrun := (runOps_replicate_pop_of_empty n hc he).trans (exec_pop_of_empty hc he)
  exact ⟨_, _, hrun, getElem?_set_self_of_some _ hc, rfl, rfl, rfl, rfl,
    fun _ hk => List.getElem?_set_ne hk.symm, rfl, rfl, rfl, rfl, rfl, rfl⟩

/-! ### A push and a pop in one cycle (R156) -/

/-- Between empty and full the indices differ, so a push and a pop meet at different elements. -/
theorem Fifo.IndicesOk.wr_ne_rd {p : ChanParams} {f : Fifo} (h : f.IndicesOk p) (he : 0 < f.count)
    (hf : f.count < p.cap) : f.wr ≠ f.rd := by
  intro heq
  have hslot : (f.rd + f.count) % p.cap = (f.rd + 0) % p.cap := by
    rw [← h.wr_eq, Nat.add_zero, Nat.mod_eq_of_lt h.rd_lt, heq]
  exact he.ne' (slot_injective hf (he.trans hf) hslot)

section Updates

variable {c : Channel} (st : Nat → Elem) (x : Elem)

/-- On a channel that is not empty the combined update is the push, then the pop. -/
theorem Channel.pushPop_eq_push_pop_of_stored (h : c.fifo.IndicesOk c.params)
    (he : c.fifo.count ≠ 0) : c.pushPop st x = (c.push x).pop st := by
  by_cases hf : c.fifo.count = c.params.cap
  · exact pushPop_eq_push_pop st x hf he
  · have hne := h.wr_ne_rd (Nat.pos_of_ne_zero he) (lt_of_le_of_ne h.count_le hf)
    have hstored : (c.push x).fifo.count ≠ 0 := by
      rw [push_of_room x hf]
      exact Nat.succ_ne_zero _
    rw [pushPop_of_both st x hf he, pop_of_stored st hstored, push_of_room x hf]
    simp [Fifo.head, Memory.read_write_other _ _ _ _ hne.symm]

theorem Channel.pushPop_pushOk :
    (c.pushPop st x).out.pushOk = decide (c.fifo.count ≠ c.params.cap) := by
  simp [pushPop, Fifo.full, beq_eq_decide]

/-- The registers after the combined update, from their values at the start of the cycle. -/
theorem Channel.pushPop_fifo :
    (c.pushPop st x).fifo =
      { mem := if c.fifo.count ≠ c.params.cap then
            c.fifo.mem.write c.fifo.wr (lowBits c.params.w x) else c.fifo.mem
        wr := if c.fifo.count ≠ c.params.cap then nextIndex c.params.cap c.fifo.wr else c.fifo.wr
        rd := if c.fifo.count ≠ 0 then nextIndex c.params.cap c.fifo.rd else c.fifo.rd
        count := c.fifo.count + (if c.fifo.count ≠ c.params.cap then 1 else 0)
          - (if c.fifo.count ≠ 0 then 1 else 0) } := by
  simp only [pushPop, ne_eq, ← Fifo.full_iff, ← Fifo.empty_iff]
  cases c.fifo.full c.params <;> cases c.fifo.empty <;> rfl

theorem Channel.pushPop_rd :
    (c.pushPop st x).fifo.rd =
      if c.fifo.count ≠ 0 then (c.fifo.rd + 1) % c.params.cap else c.fifo.rd :=
  congrArg Fifo.rd (pushPop_fifo st x)

theorem Channel.pushPop_wr :
    (c.pushPop st x).fifo.wr =
      if c.fifo.count ≠ c.params.cap then (c.fifo.wr + 1) % c.params.cap else c.fifo.wr :=
  congrArg Fifo.wr (pushPop_fifo st x)

theorem Channel.pushPop_count :
    (c.pushPop st x).fifo.count + (if c.fifo.count ≠ 0 then 1 else 0) =
      c.fifo.count + (if c.fifo.count ≠ c.params.cap then 1 else 0) := by
  have hle : (if c.fifo.count ≠ 0 then 1 else 0) ≤ c.fifo.count := by
    split
    · exact Nat.pos_of_ne_zero ‹_›
    · exact Nat.zero_le _
  rw [pushPop_fifo]
  exact Nat.sub_add_cancel (hle.trans (Nat.le_add_right _ _))

/-- The array after the combined update: the element at `WR` where the push succeeds. -/
theorem Channel.pushPop_read {x : Elem} (hx : x < 2 ^ c.params.w) (i : Nat) :
    (c.pushPop st x).fifo.mem.read i =
      if c.fifo.count ≠ c.params.cap ∧ i = c.fifo.wr then some x else c.fifo.mem.read i := by
  rw [pushPop_fifo]
  by_cases hf : c.fifo.count = c.params.cap
  · simp [hf]
  · simp [hf, Memory.read_write, lowBits, Nat.mod_eq_of_lt hx]

/-- Under the invariant a channel that is not empty has an element stored at `RD`. -/
theorem Channel.exists_read_rd (h : c.Inv) (he : c.fifo.count ≠ 0) :
    ∃ x, c.fifo.mem.read c.fifo.rd = some x := by
  obtain ⟨x, -, hx⟩ := pop_of_inv (fun _ => 0) h he
  rw [contents_eq_cons_pop (fun _ => 0) he, Nat.mod_eq_of_lt h.indices.rd_lt] at hx
  exact ⟨x, (List.cons.inj hx).1⟩

/-- Under the invariant the pop answers the element that is stored at `RD`. -/
theorem Channel.pushPop_popped (h : c.Inv) :
    (c.pushPop st x).out.popped = if c.fifo.count ≠ 0 then c.fifo.mem.read c.fifo.rd else none := by
  by_cases he : c.fifo.count = 0
  · simp [pushPop, he]
  · obtain ⟨y, hread⟩ := exists_read_rd h he
    simp [pushPop, he, hread, Fifo.head]

end Updates

section Cycle

variable {s : State} {ch : Nat} {item : Elem} {c : Channel}

theorem chanCycle_push_and_pop (hc : s.chans[ch]? = some c) (hitem : item < 2 ^ c.params.w) :
    chanCycle ch { push := pushWord c.params.w item, popReq := true } s =
      execPushPop ch item s := by
  simp [chanCycle, hc, chanOps, decodePush_pushWord ch hitem, decodePop, runChanOps]

/-- The cycle that presents a push and a pop runs the combined update, and nothing else. -/
theorem step_pushPopCycle (hinv : s.Inv) (hc : s.chans[ch]? = some c)
    (hitem : item < 2 ^ c.params.w) :
    step (s.present (pushPopCycle c.params.w ch item)) = execPushPop ch item s.started := by
  obtain ⟨hlt, -⟩ := List.getElem?_eq_some_iff.mp hc
  calc step (s.present (pushPopCycle c.params.w ch item))
    _ = runCycle (pushPopCycle c.params.w ch item) s.consumeInputs := step_present hinv.config _
    _ = chanCycles 0 (pushPopCycle c.params.w ch item).chans s.started :=
        runCycle_of_ops (by simpa [pushPopCycle] using hlt) rfl hinv.ready
    _ = chanCycles (0 + ch) [{ push := pushWord c.params.w item, popReq := true }] s.started :=
        chanCycles_replicate_quiet _ _ _ _ (by simpa using hlt.le)
    _ = chanCycle ch { push := pushWord c.params.w item, popReq := true } s.started := by
        rw [Nat.zero_add]; exact andThen_next_right _
    _ = execPushPop ch item s.started := chanCycle_push_and_pop (c := c.quiet) (by simp [hc]) hitem

end Cycle

/-- Settles O45: the cycle is the combined update, which is either serial order where its first
operation succeeds. -/
theorem pushAndPopInOneCycle : Obligations.PushAndPopInOneCycle := by
  intro s ch item c hinv hc hitem
  have hcinv : c.Inv := hinv.channels c (List.mem_of_getElem? hc)
  have hq : c.quiet.Inv := Channel.quiet_inv hcinv
  have hquiet : s.started.chans[ch]? = some c.quiet := by simp [hc]
  rw [step_pushPopCycle hinv hc hitem, execPushPop_of_some hquiet]
  refine ⟨fun he => ?_, fun hf => ?_, _, _, rfl, getElem?_set_self_of_some _ hquiet,
    Channel.pushPop_pushOk _ _, Channel.pushPop_popped _ _ hq,
    Channel.pushPop_rd _ _, Channel.pushPop_wr _ _, Channel.pushPop_read _ hitem,
    Channel.pushPop_count _ _, hcinv.indices.wr_ne_rd, rfl,
    fun _ hk => List.getElem?_set_ne hk.symm⟩
  · rw [exec_push_then_pop hquiet, Channel.pushPop_eq_push_pop_of_stored _ _ hq.indices he]
  · rw [exec_pop_then_push hquiet,
      Channel.pushPop_eq_pop_push (c := c.quiet) _ _ hf hq.indices.count_le]

/-! ### Pushes beyond the capacity (R155)

Read on the queue a channel simulates: pushes fill it up to `CAP` and no further, pops take it from
the front. -/

section Queue

variable {q : Queue} {ch : Nat}

theorem Queue.push_of_full (x : Elem) (h : q.items.length = q.params.cap) :
    q.push x = { q with out := { q.out with pushOk := false } } := by
  rw [push, if_pos h]

theorem Queue.push_of_room {x : Elem} (hx : x < 2 ^ q.params.w)
    (h : q.items.length ≠ q.params.cap) :
    q.push x = { q with items := q.items ++ [some x], out := { q.out with pushOk := true } } := by
  rw [push, if_neg h, lowBits, Nat.mod_eq_of_lt hx]

theorem Queue.push_pushOk (x : Elem) (q : Queue) :
    (q.push x).out.pushOk = decide (q.items.length ≠ q.params.cap) := by
  by_cases h : q.items.length = q.params.cap <;> simp [push, h]

theorem Queue.pop_items (q : Queue) : q.pop.items = q.items.tail := by
  unfold pop; split <;> simp [*]

theorem Queue.pop_popped (q : Queue) : q.pop.out.popped = q.items.head?.join := by
  unfold pop; split <;> simp [*]

/-- Pushes leave the constants alone, append their elements as long as there is room, and drop the
rest. -/
theorem Queue.foldl_push {xs : List Elem} (hle : q.items.length ≤ q.params.cap)
    (hxs : ∀ x ∈ xs, x < 2 ^ q.params.w) :
    ((xs.map (.push ch)).foldl exec q).params = q.params ∧
      ((xs.map (.push ch)).foldl exec q).items =
        q.items ++ (xs.take (q.params.cap - q.items.length)).map some := by
  induction xs generalizing q with
  | nil => simp
  | cons x xs ih =>
    obtain ⟨hx, hrest⟩ := List.forall_mem_cons.mp hxs
    simp only [List.map_cons, List.foldl_cons, exec]
    by_cases hfull : q.items.length = q.params.cap
    · rw [push_of_full x hfull]
      simpa [hfull] using ih (q := { q with out := { q.out with pushOk := false } }) hle hrest
    · rw [push_of_room hx hfull]
      have hroom : q.params.cap - q.items.length = q.params.cap - (q.items.length + 1) + 1 := by
        omega
      have hlater := ih (q := { q with items := q.items ++ [some x],
                                       out := { q.out with pushOk := true } })
        (by simpa using (by omega : q.items.length + 1 ≤ q.params.cap)) hrest
      simpa [hroom] using hlater

/-- Pops take elements from the front. -/
theorem Queue.foldl_pop_items (n : Nat) :
    ((List.replicate n (.pop ch)).foldl exec q).items = q.items.drop n := by
  induction n with
  | zero => rfl
  | succ n ih =>
    rw [List.replicate_succ', List.foldl_append, List.foldl_cons, List.foldl_nil, exec, pop_items,
      ih, List.tail_drop]

/-- The last of several pops answers the element that stood at its place at the start. -/
theorem Queue.foldl_pop_popped (n : Nat) :
    ((List.replicate (n + 1) (.pop ch)).foldl exec q).out.popped = q.items[n]?.join := by
  rw [List.replicate_succ', List.foldl_append, List.foldl_cons, List.foldl_nil, exec, pop_popped,
    foldl_pop_items, List.head?_drop]

end Queue

section EmptyQueue

variable {q : Queue} {xs : List Elem} (ch : Nat) (hq : q.items = [])

include hq

/-- Pushes into an empty queue leave the first `CAP` elements. -/
theorem Queue.foldl_push_items_of_empty (hxs : ∀ x ∈ xs, x < 2 ^ q.params.w) :
    ((xs.map (.push ch)).foldl exec q).items = (xs.take q.params.cap).map some := by
  obtain ⟨-, hitems⟩ := foldl_push (ch := ch) (by simp [hq]) hxs
  simpa [hq] using hitems

/-- The push after those of `xs` succeeds while there are fewer than `CAP` of them. -/
theorem Queue.foldl_push_pushOk_of_empty (x : Elem) (hxs : ∀ y ∈ xs, y < 2 ^ q.params.w) :
    (((xs ++ [x]).map (.push ch)).foldl exec q).out.pushOk = decide (xs.length < q.params.cap) := by
  obtain ⟨hparams, -⟩ := foldl_push (ch := ch) (by simp [hq]) hxs
  rw [List.map_append, List.foldl_append, List.map_singleton, List.foldl_cons, List.foldl_nil, exec,
    push_pushOk, foldl_push_items_of_empty ch hq hxs, hparams]
  simp

/-- The pops after those pushes answer the first `CAP` elements, and then "empty". -/
theorem Queue.foldl_push_pop_popped_of_empty (n : Nat) (hxs : ∀ x ∈ xs, x < 2 ^ q.params.w) :
    ((xs.map (Instr.push ch) ++ List.replicate (n + 1) (Instr.pop ch)).foldl exec q).out.popped =
      (xs.take q.params.cap)[n]? := by
  rw [List.foldl_append, foldl_pop_popped, foldl_push_items_of_empty ch hq hxs, List.getElem?_map]
  cases (xs.take q.params.cap)[n]? <;> rfl

end EmptyQueue

/-- What a sequence of operations on a channel answers and leaves is read off the queue. -/
theorem runOps_answers_queue {ops : List Instr} {ch : Nat} {s : State} {c : Channel}
    (hops : ∀ i ∈ ops, blockOf i = some ch) (hc : s.chans[ch]? = some c) (h : c.Inv) :
    ∃ t, runOps ops s = .next t ∧ t.contents ch = (ops.foldl Queue.exec c.queue).items ∧
      t.pushOk ch = (ops.foldl Queue.exec c.queue).out.pushOk ∧
      t.popped ch = (ops.foldl Queue.exec c.queue).out.popped := by
  obtain ⟨t, d, ht, hd, -, hq⟩ := runOps_simulates_queue hops hc h
  rw [← hq]
  exact ⟨t, ht, State.contents_of_some hd, State.pushOk_of_some hd, State.popped_of_some hd⟩

theorem blockOf_of_mem_pushes {i : Instr} {ch : Nat} {xs : List Elem}
    (hi : i ∈ xs.map (.push ch)) : blockOf i = some ch := by
  obtain ⟨x, -, rfl⟩ := List.mem_map.mp hi
  rfl

theorem blockOf_of_mem_pushes_pops {i : Instr} {ch n : Nat} {xs : List Elem}
    (hi : i ∈ xs.map (.push ch) ++ List.replicate n (.pop ch)) : blockOf i = some ch := by
  obtain hi | hi := List.mem_append.mp hi
  · exact blockOf_of_mem_pushes hi
  · rw [List.eq_of_mem_replicate hi]
    rfl

/-- Settles O46: the channel answers as the queue does, which keeps the first `CAP` elements. -/
theorem overfilledChannelKeepsTheOldest : Obligations.OverfilledChannelKeepsTheOldest := by
  intro s ch c items hc hinv hempty _ hitems
  have hq : c.queue.items = [] := Fifo.contents_of_empty _ hempty
  have hpop (n : Nat) :
      ∃ u, runOps (items.map (.push ch) ++ List.replicate (n + 1) (.pop ch)) s = .next u ∧
        u.popped ch = (items.take c.params.cap)[n]? := by
    obtain ⟨u, hu, -, -, hpopped⟩ :=
      runOps_answers_queue (fun _ => blockOf_of_mem_pushes_pops) hc hinv
    exact ⟨u, hu, hpopped.trans (Queue.foldl_push_pop_popped_of_empty ch hq n hitems)⟩
  refine ⟨fun k hk => ?_, ?_, fun k x hk hx => ?_, ?_⟩
  · have hkept : ∀ x ∈ items.take k, x < 2 ^ c.params.w := fun x hx =>
      hitems x (List.mem_of_mem_take hx)
    obtain ⟨t, ht, -, hok, -⟩ := runOps_answers_queue (fun _ => blockOf_of_mem_pushes) hc hinv
    refine ⟨t, ht, hok.trans ?_⟩
    rw [List.take_succ_eq_append_getElem hk, Queue.foldl_push_pushOk_of_empty ch hq _ hkept,
      List.length_take_of_le hk.le]
    rfl
  · obtain ⟨t, ht, hcontents, -, -⟩ := runOps_answers_queue (fun _ => blockOf_of_mem_pushes) hc hinv
    exact ⟨t, ht, hcontents.trans (Queue.foldl_push_items_of_empty ch hq hitems)⟩
  · obtain ⟨u, hu, hpopped⟩ := hpop k
    exact ⟨u, hu, by rw [hpopped, List.getElem?_take_of_lt hk, hx]⟩
  · obtain ⟨u, hu, hpopped⟩ := hpop c.params.cap
    exact ⟨u, hu, by rw [hpopped, List.getElem?_take_eq_none le_rfl]⟩

end Sys2Proof.Machine

/-! PROOFS. Reset and the result signals (spec/70_reset_and_hazards.md): what a reset cycle restores, what
is refused before the first one, and the cycle in which a result is signalled. -/

namespace Sys2Proof.Machine

/-! ### The reset cycle (R210, R212) -/

/-- A register holds a parameter or the profile's zero after a reset (10_state.md R41). -/
theorem PidRegs.mem_afterReset {z v : α} {p : PidParams α} (h : v ∈ (afterReset z p).toList) :
    v = z ∨ v ∈ p.toList := by
  simp only [toList, afterReset, PidParams.toList, List.mem_cons, List.not_mem_nil, or_false] at h ⊢
  tauto

/-- An empty channel with both indices 0 meets the invariant (10_state.md R42). -/
theorem Channel.afterReset_inv {p : ChanParams} (h : p.ok = true) : (afterReset p).Inv := by
  have hcap : 0 < p.cap := ((chanParamsOk_iff p).mp h).1
  exact
    { params := h
      indices := { count_le := Nat.zero_le _, wr_lt := hcap, rd_lt := hcap,
                   wr_eq := (Nat.zero_mod _).symm }
      array := { canonical := Memory.wf_nil, index_lt := nofun, elem_lt := nofun }
      stored := List.not_mem_nil }

/-- A reset of a good configuration establishes the invariant. -/
theorem State.hardReset_inv {s : State} (h : s.configOk = true) : s.hardReset.Inv := by
  obtain ⟨hparams, -, hchans, -, hwidths⟩ := s.configOk_iff.mp h
  refine { config := s.hardReset_configOk.trans h, ready := rfl, widths := fun v hv => ?_,
           integral := fun _ => zero_integralInRange hparams, channels := fun d hd => ?_ }
  · obtain rfl | hv := PidRegs.mem_afterReset hv
    · exact (profileArith_lt s.num 0 0).1
    · exact hwidths v hv
  · obtain ⟨c, hc, rfl⟩ := List.mem_map.mp hd
    exact Channel.afterReset_inv (hchans c hc)

theorem State.hardReset_getElem? {s : State} {ch : Nat} {c : Channel} (h : s.chans[ch]? = some c) :
    s.hardReset.chans[ch]? = some (Channel.afterReset c.params) := by
  simp [h]

/-- A cycle with `rst = 1` is the reset, whatever else it presents. -/
theorem step_present_of_rst {s : State} {p : PortInputs} (hok : s.configOk = true)
    (hrst : p.rst = true) (hlen : p.chans.length ≤ s.chans.length) :
    step (s.present p) = .next s.consumeInputs.hardReset :=
  (step_present hok p).trans (runCycle_of_rst (s := s.consumeInputs) hlen hrst)

/-- Settles O10: the cycle is `hardReset`, whose fields are those of R41 and R42. -/
theorem resetCycleRestoresEveryRegister : Obligations.ResetCycleRestoresEveryRegister := by
  intro s p hok hrst hlen
  refine ⟨_, step_present_of_rst hok hrst hlen, rfl, rfl, rfl, rfl,
    State.hardReset_inv (s := s.consumeInputs) hok, rfl, rfl, ?zero, rfl, rfl, rfl, rfl, rfl, rfl,
    List.length_map _, fun ch c hc =>
      ⟨_, State.hardReset_getElem? (s := s.consumeInputs) hc, rfl, rfl, rfl, rfl, rfl, rfl⟩⟩
  case zero =>
    intro hnum
    rw [State.arith, hnum, arith_f32_zero]

/-! ### Before the first reset (R213) -/

section Presented

variable {widths : PortWidths} {p : PortInputs}

theorem PortInputs.presents_of_tick (h : p.tick = true) : p.presents widths = true := by
  simp [presents, h]

theorem PortInputs.presents_of_cmdValid (h : p.cmdValid = true) : p.presents widths = true := by
  simp [presents, h]

theorem PortInputs.presents_of_chan {ch w : Nat} {ci : ChanIn} (hci : p.chans[ch]? = some ci)
    (hw : widths.chans[ch]? = some w) (h : ci.push.testBit w = true ∨ ci.popReq = true) :
    p.presents widths = true := by
  have hmem : (ci, w) ∈ p.chans.zip widths.chans :=
    List.mem_of_getElem? (List.getElem?_zip_eq_some.mpr ⟨hci, hw⟩)
  rw [presents, Bool.or_eq_true, List.any_eq_true]
  exact .inr ⟨(ci, w), hmem, by simpa using h⟩

/-- The inputs of one channel, behind those of channels that are presented nothing. -/
theorem getElem?_replicate_quiet_append (ch : Nat) (ci : ChanIn) :
    (List.replicate ch ChanIn.quiet ++ [ci])[ch]? = some ci := by
  simp

/-- The cycle of a word that decodes to a well-formed operation presents it, on a port that exists. -/
theorem PortInputs.ofWord_presents {word : PortWord} {i : Instr} (hd : decode widths word = .op i)
    (hi : i.wellFormed widths = true) :
    (ofWord word).rst = false ∧ (ofWord word).chans.length ≤ widths.chans.length ∧
      (ofWord word).presents widths = true := by
  cases word with
  | cmd c => exact ⟨rfl, Nat.zero_le _, presents_of_cmdValid rfl⟩
  | tick bit =>
    cases bit with
    | false => cases hd
    | true => exact ⟨rfl, Nat.zero_le _, presents_of_tick rfl⟩
  | push ch word =>
    cases hw : widths.chans[ch]? with
    | none => simp [decode, hw] at hd
    | some w =>
      obtain ⟨hlt, -⟩ := List.getElem?_eq_some_iff.mp hw
      obtain ⟨hbit, -⟩ | ⟨-, hidle⟩ := decodePush_cases w ch word
      · exact ⟨rfl, by simpa [ofWord] using hlt,
          presents_of_chan (getElem?_replicate_quiet_append _ _) hw (.inl hbit)⟩
      · simp [decode, hw, hidle] at hd
  | popReq ch bit =>
    cases bit with
    | false => cases hd
    | true =>
      obtain rfl : Instr.pop ch = i := Decoded.op.inj hd
      have hlt : ch < widths.chans.length := of_decide_eq_true hi
      exact ⟨rfl, by simpa [ofWord] using hlt,
        presents_of_chan (getElem?_replicate_quiet_append _ _) (List.getElem?_eq_getElem hlt)
          (.inr rfl)⟩

end Presented

/-- A cycle that presents anything before the first reset is refused. -/
theorem step_present_before_reset {s : State} {p : PortInputs} (hok : s.configOk = true)
    (hready : s.resetSeen = false) (hrst : p.rst = false)
    (hlen : p.chans.length ≤ s.chans.length) (hp : p.presents s.widths = true) :
    step (s.present p) = .refused .beforeFirstReset := by
  have hwidths : s.consumeInputs.widths = s.widths := rfl
  rw [step_present hok, runCycle, hwidths]
  simp [Nat.not_lt.mpr hlen, hrst, hready, hp]

/-- Settles O11: every way to present an operation makes `presents` true. -/
theorem operationBeforeFirstResetIsRefused : Obligations.OperationBeforeFirstResetIsRefused := by
  intro s hok hready
  refine ⟨fun word i hd hi => ?_, fun p hrst hlen hop => ?_⟩
  · obtain ⟨hrst, hlen, hp⟩ := PortInputs.ofWord_presents hd hi
    exact step_present_before_reset hok hready hrst (by simpa using hlen) hp
  · refine step_present_before_reset hok hready hrst hlen ?_
    obtain htick | hcmd | ⟨ch, ci, c, hci, hc, hop⟩ := hop
    · exact PortInputs.presents_of_tick htick
    · exact PortInputs.presents_of_cmdValid hcmd
    · exact PortInputs.presents_of_chan hci (by simp [hc]) hop

/-! ### The result signals (R227) -/

section Signals

variable {s t : State} {ch : Nat} {ci : ChanIn} {c d : Channel} {st : Nat → Elem}

theorem State.exists_of_pushOk (h : s.pushOk ch = true) :
    ∃ c, s.chans[ch]? = some c ∧ c.out.pushOk = true := by
  cases hc : s.chans[ch]? with
  | none => simp [State.pushOk, hc] at h
  | some c => exact ⟨c, rfl, State.pushOk_of_some hc ▸ h⟩

theorem State.exists_of_popped (h : s.popped ch ≠ none) :
    ∃ c, s.chans[ch]? = some c ∧ c.out.popped ≠ none := by
  cases hc : s.chans[ch]? with
  | none => simp [State.popped, hc] at h
  | some c => exact ⟨c, rfl, State.popped_of_some hc ▸ h⟩

/-- From signals taken back, `push_ok` is 1 only after a push. -/
theorem testBit_of_chanAfter_pushOk (h : (chanAfter st ci c.quiet).out.pushOk = true) :
    ci.push.testBit c.params.w = true := by
  cases hbit : ci.push.testBit c.params.w with
  | true => rfl
  | false => cases hpop : ci.popReq <;> simp [chanAfter, hbit, hpop] at h

/-- From signals taken back, `pop_valid` is 1 only after a pop. -/
theorem popReq_of_chanAfter_popped (h : (chanAfter st ci c.quiet).out.popped ≠ none) :
    ci.popReq = true := by
  cases hpop : ci.popReq with
  | true => rfl
  | false => cases hbit : ci.push.testBit c.params.w <;> simp [chanAfter, hbit, hpop] at h

/-- Everything a cycle of operations can leave in a channel: it is presented nothing and signals nothing,
or it has run what its ports present, from signals taken back. -/
theorem operationsCycle_channel {p : PortInputs} (hlen : p.chans.length ≤ s.chans.length)
    (h : operationsCycle p s = .next t) (hd : t.chans[ch]? = some d) :
    (∃ c, s.chans[ch]? = some c ∧ d = c.quiet) ∨
      ∃ ci c, p.chans[ch]? = some ci ∧ s.chans[ch]? = some c ∧
        d = chanAfter (s.stale ch) ci c.quiet := by
  obtain ⟨u, hpid, hchans⟩ := andThen_eq_next.mp h
  obtain ⟨r, rfl⟩ := pidCycle_next hpid
  obtain ⟨chans, hnext, -, hother, hsame⟩ :=
    chanCycles_next (ch := 0) (s := { s.beginCycle with regs := r }) (by simpa using hlen)
  obtain rfl := Host.Outcome.next.inj (hnext.symm.trans hchans)
  cases hci : p.chans[ch]? with
  | none =>
    have hbeyond : p.chans.length ≤ ch := List.getElem?_eq_none_iff.mp hci
    have hkept := (hother ch (.inr (by omega))).symm.trans hd
    obtain ⟨c, hc, rfl⟩ : ∃ c, s.chans[ch]? = some c ∧ c.quiet = d := by simpa using hkept
    exact .inl ⟨c, hc, rfl⟩
  | some ci =>
    have hlt : ch < s.chans.length := (List.getElem?_eq_some_iff.mp hci).1.trans_le hlen
    have hc : s.chans[ch]? = some s.chans[ch] := List.getElem?_eq_getElem hlt
    have hself := hsame ch ci s.chans[ch].quiet hci (by simp [hc])
    rw [Nat.zero_add] at hself
    exact .inr ⟨ci, _, rfl, hc, Option.some.inj (hd.symm.trans hself)⟩

/-- Everything a cycle that completes can leave in a channel: no signal, or the answer to what the ports
present in that cycle, which is no reset. -/
theorem step_channel (h : step s = .next t) (hd : t.chans[ch]? = some d) :
    d.out = { pushOk := false, popped := none } ∨
      (fetchInputs s).rst = false ∧ ∃ ci c, (fetchInputs s).chans[ch]? = some ci ∧
        s.chans[ch]? = some c ∧ d = chanAfter (s.stale ch) ci c.quiet := by
  obtain ⟨-, hlen, ⟨-, rfl⟩ | ⟨hrst, -, hops⟩⟩ := step_next h
  · obtain ⟨c, -, rfl⟩ := List.mem_map.mp (List.mem_of_getElem? hd)
    exact .inl rfl
  · obtain ⟨c, -, rfl⟩ | hran := operationsCycle_channel (s := s.consumeInputs) hlen hops hd
    · exact .inl rfl
    · exact .inr ⟨hrst, hran⟩

end Signals

/-- Settles O55: a channel that signals a result has run what its ports present in that cycle. -/
theorem resultSignalsAreNotHeld : Obligations.ResultSignalsAreNotHeld := by
  intro s t ch h
  refine ⟨fun hpush => ?_, fun hpop => ?_⟩
  · obtain ⟨d, hd, hout⟩ := State.exists_of_pushOk hpush
    obtain hquiet | ⟨hrst, ci, c, hci, hc, rfl⟩ := step_channel h hd
    · simp [hquiet] at hout
    · exact ⟨ci, c, hci, hc, testBit_of_chanAfter_pushOk hout, hrst⟩
  · obtain ⟨d, hd, hout⟩ := State.exists_of_popped hpop
    obtain hquiet | ⟨hrst, ci, c, hci, -, rfl⟩ := step_channel h hd
    · simp [hquiet] at hout
    · exact ⟨ci, hci, popReq_of_chanAfter_popped hout, hrst⟩

end Sys2Proof.Machine

/-! PROOFS. The encoder and the command decoder as inverses of each other (spec/30_encoding.md R83 to R88). -/

namespace Sys2Proof

/-- Settles O2: the decoder reads each row's own word back, and the port names the channel. -/
theorem decodeOfEncodeIsTheOperation : Obligations.DecodeOfEncodeIsTheOperation := by
  intro widths i hi
  cases i with
  | nop => exact decodeCmd_cmdWord_nop (Nat.two_pow_pos _)
  | reset => exact decodeCmd_cmdWord_reset (Nat.two_pow_pos _)
  | setSp v => exact decodeCmd_cmdWord_setSp (of_decide_eq_true hi)
  | setKp v => exact decodeCmd_cmdWord_setKp (of_decide_eq_true hi)
  | setKi v => exact decodeCmd_cmdWord_setKi (of_decide_eq_true hi)
  | setKd v => exact decodeCmd_cmdWord_setKd (of_decide_eq_true hi)
  | wrAct v => exact decodeCmd_cmdWord_wrAct (of_decide_eq_true hi)
  | wrPv v => exact decodeCmd_cmdWord_wrPv (of_decide_eq_true hi)
  | tick => rfl
  | push ch item =>
    cases hw : widths.chans[ch]? with
    | none => simp [Instr.wellFormed, hw] at hi
    | some w =>
      have hitem : item < 2 ^ w := by simpa [Instr.wellFormed, hw] using hi
      simp [decode, encode, hw, decodePush_pushWord ch hitem]
  | pop ch => rfl

/-- What the encoder makes of the operation a command word decodes to: the word's own code, with its data
where the operation has an operand and zero where it has none (D27). -/
theorem encode_of_decodeCmd {widths : PortWidths} {c : Nat} {i : Instr}
    (h : decodeCmd widths.nw c = .op i) :
    (i = .nop ∨ i = .reset) ∧ encode widths i = .cmd (cmdWord widths.nw (cmdOp widths.nw c) 0) ∨
      (i ≠ .nop ∧ i ≠ .reset) ∧
        encode widths i = .cmd (cmdWord widths.nw (cmdOp widths.nw c) (cmdData widths.nw c)) := by
  have hop : BitVec.ofNat 4 (cmdOp widths.nw c).toNat = cmdOp widths.nw c := by simp
  unfold decodeCmd at h
  rw [← hop]
  generalize (cmdOp widths.nw c).toNat = n at h ⊢
  match n with
  | 0 | 1 => obtain rfl := Decoded.op.inj h; exact .inl ⟨by simp, rfl⟩
  | 2 | 3 | 4 | 5 | 6 | 7 => obtain rfl := Decoded.op.inj h; exact .inr ⟨by simp, rfl⟩
  | k + 8 => cases h

/-- Settles O3: on `NW + 4` bits a word is its two fields. -/
theorem encodeOfDecodedCommandIsTheWord : Obligations.EncodeOfDecodedCommandIsTheWord := by
  intro widths c i hc hd
  obtain ⟨hi, henc⟩ | ⟨⟨hnop, hreset⟩, henc⟩ := encode_of_decodeCmd hd
  · refine ⟨fun hnop hreset => absurd hi (by tauto), fun _ => ⟨_, henc, cmdOp_toNat_of_lt hc⟩⟩
  · refine ⟨fun _ _ => ?_, fun hi => absurd hi (by tauto)⟩
    rw [henc, cmdWord_fields hc]

/-- Settles O1, word by word. -/
theorem workedEncodingsDecode : Obligations.WorkedEncodingsDecode :=
  ⟨rfl, rfl, rfl, rfl, fun _ => rfl, rfl, fun _ => rfl⟩

end Sys2Proof

/-! PROOFS. The machine as a whole: what every operation and every cycle answers, and the invariant that each
of them keeps (spec/10_state.md, spec/60_exceptions.md section 1). -/

namespace Sys2Proof.Machine

/-! ### Operations and cycles complete (spec/60_exceptions.md section 1) -/

/-- A tick completes or is the fault on NaN. -/
theorem exec_tick_completes (s : State) :
    (∃ t, exec .tick s = .next t) ∨ exec .tick s = .fault .nanTick := by
  rw [exec_tick]
  cases pidTick s.arith s.params s.regs with
  | some r => exact .inl ⟨_, rfl⟩
  | none => exact .inr rfl

/-- A host command completes in every state (spec/41_pid_host.md R140). -/
theorem exec_of_isHostCommand {i : Instr} (h : i.isHostCommand = true) (s : State) :
    ∃ t, exec i s = .next t := by
  cases i with
  | tick | push | pop => cases h
  | _ => exact ⟨_, rfl⟩

/-- An operation on a channel that exists completes. -/
theorem exec_of_blockOf_of_some {i : Instr} {ch : Nat} {s : State} {c : Channel}
    (hb : blockOf i = some ch) (hc : s.chans[ch]? = some c) : ∃ t, exec i s = .next t := by
  obtain ⟨f, hf⟩ := exec_of_blockOf_some hb
  exact ⟨_, (hf s).trans (onChannel_of_some _ hc)⟩

/-- Settles O52: the tick, the host commands, and the operations on a channel, which exists. -/
theorem operationsNeverTrap : Obligations.OperationsNeverTrap := by
  intro s i hi
  cases hb : blockOf i with
  | some ch =>
    obtain ⟨c, hc⟩ := exists_chan_of_wellFormed hi hb
    exact .inl (exec_of_blockOf_of_some hb hc)
  | none =>
    cases i with
    | tick => exact (exec_tick_completes s).imp_right fun h => ⟨rfl, h⟩
    | push | pop => cases hb
    | _ => exact .inl (exec_of_isHostCommand rfl s)

/-- The command port never stops a cycle, whatever it presents. -/
theorem runDecoded_cmdPort_completes (nw : Nat) (p : PortInputs) (s : State) :
    ∃ t, runDecoded (cmdPort nw p) s = .next t := by
  cases hv : p.cmdValid with
  | false => rw [cmdPort_idle hv]; exact ⟨s, rfl⟩
  | true =>
    rw [cmdPort_valid hv]
    obtain ⟨-, i, hd, hi⟩ | ⟨-, hd⟩ := decodeCmd_cases nw p.cmd
    · rw [hd]; exact exec_of_isHostCommand hi s
    · rw [hd]; exact ⟨s, rfl⟩

/-- The regulator half of a cycle completes or meets a NaN in the tick that the cycle presents. -/
theorem pidCycle_completes (p : PortInputs) (s : State) :
    (∃ t, pidCycle p s = .next t) ∨ (p.tick = true ∧ pidCycle p s = .fault .nanTick) := by
  cases ht : p.tick with
  | false =>
    obtain ⟨t, hcmd⟩ := runDecoded_cmdPort_completes s.num.nw p s
    exact .inl ⟨t, by simpa [pidCycle, ht, decodeTick] using hcmd⟩
  | true =>
    obtain ⟨u, htick⟩ | hfault := exec_tick_completes s
    · obtain ⟨t, hcmd⟩ := runDecoded_cmdPort_completes s.num.nw p u
      exact .inl ⟨t, by simpa [pidCycle, ht, decodeTick, htick] using hcmd⟩
    · exact .inr ⟨rfl, by simp [pidCycle, ht, decodeTick, hfault]⟩

/-- The same of all operations of a cycle whose channels all exist. -/
theorem operationsCycle_completes {p : PortInputs} {s : State}
    (hlen : p.chans.length ≤ s.chans.length) :
    (∃ t, operationsCycle p s = .next t) ∨
      (p.tick = true ∧ operationsCycle p s = .fault .nanTick) := by
  obtain ⟨u, hpid⟩ | ⟨htick, hfault⟩ := pidCycle_completes p s.beginCycle
  · obtain ⟨r, rfl⟩ := pidCycle_next hpid
    obtain ⟨chans, hchans, -⟩ :=
      chanCycles_next (ch := 0) (s := { s.beginCycle with regs := r }) (by simpa using hlen)
    exact .inl ⟨_, andThen_eq_next.mpr ⟨_, hpid, hchans⟩⟩
  · exact .inr ⟨htick, by rw [operationsCycle, hfault, andThen_fault]⟩

/-- Settles O51: a reset cycle completes, and any other is a cycle of operations. -/
theorem everyCycleCompletesOrMeetsANaN : Obligations.EveryCycleCompletesOrMeetsANaN := by
  intro s hinv hlen
  rw [step_of_config hinv.config]
  cases hrst : (fetchInputs s).rst with
  | true => exact .inl ⟨_, runCycle_of_rst (s := s.consumeInputs) hlen hrst⟩
  | false =>
    rw [runCycle_of_ops (s := s.consumeInputs) hlen hrst hinv.ready]
    exact (operationsCycle_completes (s := s.consumeInputs) hlen).imp_right
      fun ⟨htick, hfault⟩ => ⟨hfault, htick, rfl⟩

/-! ### The invariant

One part of a step after another: an operation, what a port presents, each half of a cycle, the cycle. -/

section Invariant

variable {s t : State}

/-- An operation leaves every register within its `NW` bits. -/
theorem exec_regs_lt {i : Instr} (hparams : ∀ v ∈ s.params.toList, v < 2 ^ s.num.nw)
    (hregs : ∀ v ∈ s.regs.toList, v < 2 ^ s.num.nw) (h : exec i s = .next t) :
    ∀ v ∈ t.regs.toList, v < 2 ^ s.num.nw := by
  have hzero : s.arith.zero < 2 ^ s.num.nw := (profileArith_lt s.num 0 0).1
  cases i with
  | nop => obtain rfl := Host.Outcome.next.inj h; exact hregs
  | push | pop => obtain ⟨c, -, rfl⟩ := onChannel_next h; exact hregs
  | tick =>
    obtain ⟨-, rfl⟩ | ⟨-, -, rfl⟩ := exec_tick_next h
    · exact hregs
    · have hact : s.regs.act < 2 ^ s.num.nw := hregs _ (by simp [PidRegs.toList])
      obtain ⟨-, he, hi1, -, hout⟩ := tickLocals_lt hparams hact
      simp only [PidRegs.toList, List.forall_mem_cons] at hregs ⊢
      obtain ⟨hkp, hki, hkd, hsp, -, -, -, hpv⟩ := hregs
      exact ⟨hkp, hki, hkd, hsp, hi1, he, hout, hpv⟩
  | reset =>
    obtain rfl := Host.Outcome.next.inj h
    simp only [PidRegs.toList, List.forall_mem_cons] at hregs ⊢
    tauto
  | setSp v | setKp v | setKi v | setKd v | wrAct v | wrPv v =>
    obtain rfl := Host.Outcome.next.inj h
    have hv : s.operand v < 2 ^ s.num.nw := s.operand_lt v
    simp only [PidRegs.toList, List.forall_mem_cons] at hregs ⊢
    tauto

/-- A channel put back with its parameters and its invariant. -/
theorem State.Inv.set_chan {ch : Nat} {c d : Channel} (h : s.Inv) (hc : s.chans[ch]? = some c)
    (hp : d.params = c.params) (hd : d.Inv) :
    ({ s with chans := s.chans.set ch d } : State).Inv where
  config := h.config ▸ State.configOk_congr rfl rfl (map_params_set hc hp)
  ready := h.ready
  widths := h.widths
  integral := h.integral
  channels e he := (List.mem_or_eq_of_mem_set he).elim (h.channels e) (fun heq => heq ▸ hd)

theorem exec_inv {i : Instr} (h : s.Inv) (hexec : exec i s = .next t) : t.Inv := by
  cases hb : blockOf i with
  | none =>
    obtain ⟨-, -, -, -, hparams⟩ := s.configOk_iff.mp h.config
    have hregs := exec_regs_lt hparams h.widths hexec
    have hint : s.Ordered → IntegralInRange t.arith t.params t.regs := fun hord =>
      integralStaysInRange s t i hord h.config (h.integral hord) hexec
    obtain ⟨r, rfl⟩ := exec_next_of_blockOf_none hb hexec
    exact { config := h.config, ready := h.ready, widths := hregs, integral := hint,
            channels := h.channels }
  | some ch =>
    cases i with
    | push k item =>
      obtain ⟨c, hc, rfl⟩ := onChannel_next hexec
      exact h.set_chan hc (c.push_params item) (c.push_inv item (h.channels c (List.mem_of_getElem? hc)))
    | pop k =>
      obtain ⟨c, hc, rfl⟩ := onChannel_next hexec
      exact h.set_chan hc (c.pop_params _) (c.pop_inv _ (h.channels c (List.mem_of_getElem? hc)))
    | _ => cases hb

theorem runDecoded_inv {d : Decoded} (h : s.Inv) (hrun : runDecoded d s = .next t) : t.Inv := by
  cases d with
  | op i => exact exec_inv h hrun
  | reserved code data => obtain rfl := Host.Outcome.next.inj hrun; exact h
  | idle => obtain rfl := Host.Outcome.next.inj hrun; exact h

theorem pidCycle_inv {p : PortInputs} (h : s.Inv) (hpid : pidCycle p s = .next t) : t.Inv := by
  obtain ⟨u, htick, hcmd⟩ := andThen_eq_next.mp hpid
  exact runDecoded_inv (runDecoded_inv h htick) hcmd

theorem chanCycle_inv {ch : Nat} {ci : ChanIn} (h : s.Inv) (hchan : chanCycle ch ci s = .next t) :
    t.Inv := by
  cases hc : s.chans[ch]? with
  | none => simp [chanCycle, hc] at hchan
  | some c =>
    rw [chanCycle_of_some hc] at hchan
    obtain rfl := Host.Outcome.next.inj hchan
    exact h.set_chan hc (chanAfter_params _ ci c)
      (chanAfter_inv _ ci (h.channels c (List.mem_of_getElem? hc)))

theorem chanCycles_inv {ch : Nat} {cis : List ChanIn} (h : s.Inv)
    (hchans : chanCycles ch cis s = .next t) : t.Inv := by
  induction cis generalizing ch s with
  | nil => obtain rfl := Host.Outcome.next.inj hchans; exact h
  | cons ci rest ih =>
    obtain ⟨u, hu, hrest⟩ := andThen_eq_next.mp hchans
    exact ih (chanCycle_inv h hu) hrest

/-- Taking the inputs and the result signals back touches nothing the invariant speaks of. -/
theorem State.started_inv (h : s.Inv) : s.started.Inv where
  config := s.started_configOk.trans h.config
  ready := h.ready
  widths := h.widths
  integral := h.integral
  channels d hd := by
    obtain ⟨c, hc, rfl⟩ := List.mem_map.mp hd
    exact Channel.quiet_inv (h.channels c hc)

end Invariant

/-- Settles O50: a reset establishes the invariant, and the operations of a cycle keep it one by one. -/
theorem everyStepKeepsTheInvariant : Obligations.EveryStepKeepsTheInvariant := by
  intro s t hinv hstep
  obtain ⟨hok, -, ⟨-, rfl⟩ | ⟨-, -, hops⟩⟩ := step_next hstep
  · exact State.hardReset_inv (s := s.consumeInputs) hok
  · obtain ⟨u, hpid, hchans⟩ := andThen_eq_next.mp hops
    exact chanCycles_inv (pidCycle_inv (State.started_inv hinv) hpid) hchans

/-- The configuration of `State.reset` meets the constraints. -/
theorem State.reset_configOk : State.reset.configOk = true := by decide +kernel

/-- Settles O49: `State.reset` is, but for `memEpoch`, its own reset. -/
theorem resetEstablishesTheInvariant : Obligations.ResetEstablishesTheInvariant := by
  have h : State.reset.hardReset.Inv := State.hardReset_inv State.reset_configOk
  exact ⟨{ config := State.reset_configOk, ready := rfl, widths := h.widths, integral := h.integral,
           channels := h.channels }, fun _ => State.hardReset_inv⟩

end Sys2Proof.Machine

/-! PROOFS. binary32 (spec/00_scope.md R13): the order of the values, operations that round once, and those on
infinities and NaN. -/

namespace Sys2Proof.Machine

/-! ### The order of the values -/

/-- Every `magBits` is a significand at a scale at which the next `magBits` is the next significand. -/
theorem magUnits_succ (m : Nat) :
    ∃ r sh, magUnits m = r * 2 ^ sh ∧ magUnits (m + 1) = (r + 1) * 2 ^ sh := by
  obtain ⟨sh, hsh⟩ : ∃ sh, sh = m / 2 ^ 23 - 1 := ⟨_, rfl⟩
  obtain ⟨r, hr⟩ : ∃ r, m = sh * 2 ^ 23 + r := ⟨m - sh * 2 ^ 23, by omega⟩
  refine ⟨r, sh, ?_, ?_⟩
  · rw [hr, magUnits_scaled (by omega) (by omega)]
  · rw [hr, Nat.add_assoc, magUnits_scaled (by omega) (by omega)]

theorem magUnits_strictMono : StrictMono magUnits := by
  refine strictMono_nat_of_lt_succ fun m => ?_
  obtain ⟨r, sh, hm, hnext⟩ := magUnits_succ m
  rw [hm, hnext]
  exact Nat.mul_lt_mul_of_pos_right (Nat.lt_succ_self r) (Nat.two_pow_pos sh)

@[simp] theorem magUnits_eq_zero_iff (m : Nat) : magUnits m = 0 ↔ m = 0 :=
  magUnits_strictMono.injective.eq_iff (b := 0)

/-- A magnitude with a sign. -/
def signed (neg : Bool) (k : Nat) : Int := if neg then -(k : Int) else k

@[simp] theorem signed_true (k : Nat) : signed true k = -(k : Int) := rfl

@[simp] theorem signed_false (k : Nat) : signed false k = (k : Int) := rfl

theorem units_eq_signed (x : Num32) : units x = signed (signOf x) (magUnits (magBits x)) := rfl

theorem fltKey_eq_signed (x : Num32) : fltKey x = signed (signOf x) (magBits x) := rfl

@[simp] theorem signed_natAbs (neg : Bool) (k : Nat) : (signed neg k).natAbs = k := by
  cases neg <;> simp

@[simp] theorem signed_eq_zero_iff (neg : Bool) (k : Nat) : signed neg k = 0 ↔ k = 0 := by
  cases neg <;> simp

theorem signed_mul (p q : Bool) (j k : Nat) : signed p j * signed q k = signed (p != q) (j * k) := by
  cases p <;> cases q <;> simp

theorem signed_mul_natCast (neg : Bool) (j k : Nat) : signed neg j * k = signed neg (j * k) := by
  cases neg <;> simp

theorem signed_sign {k : Nat} (neg : Bool) (h : k ≠ 0) : (signed neg k).sign = signed neg 1 := by
  have hpos : 0 < k := Nat.pos_of_ne_zero h
  cases neg <;> simp [Int.sign_eq_one_of_pos, hpos]

/-- Strictly rising magnitudes with signs are in the order of their arguments. -/
theorem signed_lt_signed_iff {f : Nat → Nat} (hf : StrictMono f) (h0 : f 0 = 0) (p q : Bool)
    (j k : Nat) : signed p (f j) < signed q (f k) ↔ signed p j < signed q k := by
  have hjk : f j < f k ↔ j < k := hf.lt_iff_lt
  have hkj : f k < f j ↔ k < j := hf.lt_iff_lt
  have hzero (m : Nat) : f m = 0 ↔ m = 0 := by simpa [h0] using hf.injective.eq_iff (a := m) (b := 0)
  have hj := hzero j
  have hk := hzero k
  cases p <;> cases q <;> simp only [signed_true, signed_false] <;> omega

theorem units_lt_units_iff (a b : Num32) : units a < units b ↔ fltKey a < fltKey b :=
  signed_lt_signed_iff magUnits_strictMono rfl _ _ _ _

@[simp] theorem units_eq_zero_iff (x : Num32) : units x = 0 ↔ magBits x = 0 := by
  rw [units_eq_signed, signed_eq_zero_iff, magUnits_eq_zero_iff]

theorem isInf_iff (x : Num32) : isInf x = true ↔ magBits x = infBits := decide_eq_true_iff

theorem isFinite_iff (x : Num32) : isFinite x = true ↔ magBits x < infBits := decide_eq_true_iff

theorem isNaN_of_isInf {x : Num32} (h : isInf x = true) : isNaN x = false := by
  rw [isInf_iff] at h
  simp [isNaN, h]

theorem isInf_of_isFinite {x : Num32} (h : isFinite x = true) : isInf x = false := by
  rw [isFinite_iff] at h
  simp [isInf, h.ne]

/-- Settles O36: the number `flt` compares rises with the value. -/
theorem lessThanIsNumericOrder : Obligations.LessThanIsNumericOrder := by
  intro a b
  refine ⟨fun ha hb => ?finite, ?nan, fun ha => ?ends, fun ha hb => ?infinite⟩
  case finite => simp [flt_iff, isNaN_of_isFinite ha, isNaN_of_isFinite hb, units_lt_units_iff]
  case nan => exact fun h => h.elim (flt_nan_left b) (flt_nan_right a)
  case ends =>
    have hpos := flt_posInf_of_isFinite ha
    have hneg := negInf_flt_of_isFinite ha
    exact ⟨hpos, hneg, flt_asymm hpos, flt_asymm hneg⟩
  case infinite =>
    have hamag := (isInf_iff a).mp ha
    have hbmag := (isInf_iff b).mp hb
    simp only [flt_iff, isNaN_of_isInf ha, isNaN_of_isInf hb, fltKey_eq_signed, hamag, hbmag]
    cases signOf a <;> cases signOf b <;> decide

/-! ### Packed values -/

section Pack

variable {mag : Nat} (neg : Bool) (h : mag ≤ infBits)

include h

theorem packNum_toNat : (packNum neg mag).toNat = (if neg then 2 ^ 31 else 0) + mag := by
  have hlt : (if neg then 2 ^ 31 else 0) + mag < 2 ^ 32 := by
    unfold infBits at h; split <;> omega
  rw [packNum, BitVec.toNat_ofNat, Nat.mod_eq_of_lt hlt]

theorem magBits_packNum : magBits (packNum neg mag) = mag := by
  rw [magBits, packNum_toNat neg h]
  unfold infBits at h; split <;> omega

theorem signOf_packNum : signOf (packNum neg mag) = neg := by
  rw [signOf, ← BitVec.testBit_toNat, packNum_toNat neg h, Nat.testBit_eq_decide_div_mod_eq]
  unfold infBits at h
  cases neg <;> simp <;> omega

theorem units_packNum : units (packNum neg mag) = signed neg (magUnits mag) := by
  rw [units_eq_signed, signOf_packNum neg h, magBits_packNum neg h]

/-- The lowest bit of a packed value is the lowest bit of its fraction. -/
theorem packNum_even (heven : mag % 2 = 0) : (packNum neg mag).getLsbD 0 = false := by
  rw [← BitVec.testBit_toNat, packNum_toNat neg h, Nat.testBit_eq_decide_div_mod_eq]
  cases neg <;> simp <;> omega

end Pack

theorem isInf_packNum (neg : Bool) : isInf (packNum neg infBits) = true :=
  (isInf_iff _).mpr (magBits_packNum neg le_rfl)

/-! ### Rounding once -/

theorem roundMag_le (n d : Nat) : roundMag n d ≤ infBits := Nat.min_le_right _ _

/-- The distance of two values of the same sign is that of their magnitudes. -/
theorem natAbs_signed_sub (neg : Bool) (j k : Nat) :
    (signed neg j - signed neg k).natAbs = natDist j k := by
  rw [natDist_eq_natAbs]
  cases neg with
  | false => rfl
  | true => simp only [signed_true]; omega

/-- The distance of two values of different signs is the sum of their magnitudes. -/
theorem natAbs_signed_sub_of_ne {p q : Bool} (h : p ≠ q) (j k : Nat) :
    (signed p j - signed q k).natAbs = j + k := by
  obtain rfl : p = !q := Bool.eq_not_of_ne h
  cases q <;> simp only [Bool.not_true, Bool.not_false, signed_true, signed_false] <;> omega

/-- Beside every binary32 value there is one with the given sign that is as near to `k / d` with that sign;
it is the value itself unless it is nearer. -/
theorem exists_magUnits_as_near {d : Nat} (hd : 0 < d) (neg : Bool) (k : Nat) (c : Num32) :
    ∃ m, natDist (magUnits m * d) k ≤ (units c * d - signed neg k).natAbs ∧
      (natDist (magUnits m * d) k = (units c * d - signed neg k).natAbs →
        units c = signed neg (magUnits m)) := by
  rw [units_eq_signed, signed_mul_natCast]
  by_cases hsign : signOf c = neg
  · refine ⟨magBits c, ?_, fun _ => by rw [hsign]⟩
    rw [hsign, natAbs_signed_sub]
  · have hnear : natDist (magUnits 0 * d) k = k := by simp [natDist, magUnits]
    refine ⟨0, ?_⟩
    rw [natAbs_signed_sub_of_ne hsign, hnear]
    refine ⟨Nat.le_add_left _ _, fun heq => ?_⟩
    have hzero : magUnits (magBits c) = 0 := by
      refine (Nat.mul_eq_zero.mp (?_ : magUnits (magBits c) * d = 0)).resolve_right hd.ne'
      omega
    rw [hzero]
    cases signOf c <;> cases neg <;> rfl

/-- The magnitude `k / d` rounded by `roundMag`, with a sign, is that signed quotient rounded once; a zero may
have either sign. -/
theorem correctlyRounded_packNum {d : Nat} (hd : 0 < d) (neg : Bool) (k : Nat) :
    CorrectlyRounded (packNum neg (roundMag k d)) (signed neg k) d := by
  have hle := roundMag_le k d
  obtain ⟨hfinite, hoverflow⟩ := roundMag_spec (n := k) hd
  unfold CorrectlyRounded
  rw [signed_natAbs, units_packNum neg hle, signOf_packNum neg hle]
  refine ⟨fun hk => ?sign, fun hlt => ?finite, fun hge => ?overflow⟩
  case sign =>
    rw [Ne, signed_eq_zero_iff] at hk
    cases neg with
    | true => simpa using Nat.pos_of_ne_zero hk
    | false => exact (decide_eq_false (Int.not_lt.mpr (Int.natCast_nonneg k))).symm
  case finite =>
    obtain ⟨hfin, hnearest⟩ := hfinite hlt
    refine ⟨(isFinite_iff _).mpr (by rwa [magBits_packNum neg hle]), fun c _ => ?_⟩
    obtain ⟨m, hm, hmeq⟩ := exists_magUnits_as_near hd neg k c
    obtain ⟨hmin, htie⟩ := hnearest m
    rw [signed_mul_natCast, natAbs_signed_sub]
    refine ⟨hmin.trans hm, fun heq hne => packNum_even neg hle ?_⟩
    have hc : units c = signed neg (magUnits m) := hmeq (le_antisymm hm (heq ▸ hmin))
    refine htie (le_antisymm hmin (heq ▸ hm)) fun h => hne ?_
    rw [hc, h]
  case overflow => rw [hoverflow hge]; exact isInf_packNum neg

/-! ### The operations on finite values -/

section Finite

variable {a b : Num32} (ha : isFinite a = true) (hb : isFinite b = true)

include ha hb

theorem fmul_of_isFinite :
    fmul a b = packNum (signOf a != signOf b)
      (roundMag (magUnits (magBits a) * magUnits (magBits b)) (2 ^ 149)) := by
  simp [fmul, isNaN_of_isFinite ha, isNaN_of_isFinite hb, isInf_of_isFinite ha, isInf_of_isFinite hb]

theorem fdiv_of_isFinite (h0 : magBits b ≠ 0) :
    fdiv a b = packNum (signOf a != signOf b)
      (roundMag (magUnits (magBits a) * 2 ^ 149) (magUnits (magBits b))) := by
  simp [fdiv, isNaN_of_isFinite ha, isNaN_of_isFinite hb, isInf_of_isFinite ha, isInf_of_isFinite hb,
    h0]

theorem fadd_of_sum_zero (h : units a + units b = 0) :
    fadd a b = packNum (signOf a && signOf b) 0 := by
  simp [fadd, isNaN_of_isFinite ha, isNaN_of_isFinite hb, isInf_of_isFinite ha, isInf_of_isFinite hb,
    h]

theorem fadd_of_sum_ne_zero (h : units a + units b ≠ 0) :
    fadd a b =
      packNum (decide (units a + units b < 0)) (roundMag (units a + units b).natAbs 1) := by
  simp [fadd, isNaN_of_isFinite ha, isNaN_of_isFinite hb, isInf_of_isFinite ha, isInf_of_isFinite hb,
    h]

end Finite

/-- Every integer is its magnitude with its sign. -/
theorem eq_signed_natAbs (n : Int) : n = signed (decide (n < 0)) n.natAbs := by
  by_cases h : n < 0 <;> simp only [h, decide_true, decide_false, signed_true, signed_false] <;> omega

/-- The sum is rounded once; an exact zero is `-0` only where both operands are negative. -/
theorem fadd_correctlyRounded {a b : Num32} (ha : isFinite a = true) (hb : isFinite b = true) :
    CorrectlyRounded (fadd a b) (units a + units b) 1 ∧
      (units a + units b = 0 →
        fadd a b = if signOf a && signOf b then 0x80000000#32 else 0x00000000#32) := by
  by_cases h : units a + units b = 0
  · have hround := correctlyRounded_packNum Nat.one_pos (signOf a && signOf b) 0
    have hsigned : signed (signOf a && signOf b) 0 = 0 := (signed_eq_zero_iff _ _).mpr rfl
    rw [hsigned] at hround
    rw [fadd_of_sum_zero ha hb h, h]
    refine ⟨hround, fun _ => ?_⟩
    cases signOf a && signOf b <;> rfl
  · have hround := correctlyRounded_packNum Nat.one_pos (decide (units a + units b < 0))
      (units a + units b).natAbs
    rw [← eq_signed_natAbs] at hround
    rw [fadd_of_sum_ne_zero ha hb h]
    exact ⟨hround, fun h0 => absurd h0 h⟩

theorem isFinite_fneg (x : Num32) : isFinite (fneg x) = isFinite x := by
  simp [isFinite, magBits_fneg]

theorem isInf_fneg (x : Num32) : isInf (fneg x) = isInf x := by simp [isInf, magBits_fneg]

/-- Settles O33: a difference is the sum with the second operand negated. -/
theorem sumsAreCorrectlyRounded : Obligations.SumsAreCorrectlyRounded := by
  intro a b ha hb
  obtain ⟨hadd, haddZero⟩ := fadd_correctlyRounded ha hb
  obtain ⟨hsub, hsubZero⟩ := fadd_correctlyRounded ha ((isFinite_fneg b).trans hb)
  rw [units_fneg, signOf_fneg, ← Int.sub_eq_add_neg] at hsubZero
  rw [units_fneg, ← Int.sub_eq_add_neg] at hsub
  exact ⟨hadd, hsub, haddZero, hsubZero⟩

/-- Settles O34: the product of the magnitudes, in units of 2^-298, is rounded once. -/
theorem productsAreCorrectlyRounded : Obligations.ProductsAreCorrectlyRounded := by
  intro a b ha hb
  rw [fmul_of_isFinite ha hb, units_eq_signed a, units_eq_signed b, signed_mul]
  exact ⟨correctlyRounded_packNum (Nat.two_pow_pos 149) _ _, signOf_packNum _ (roundMag_le _ _)⟩

/-- Settles O35: the quotient of the magnitudes is rounded once. -/
theorem quotientsAreCorrectlyRounded : Obligations.QuotientsAreCorrectlyRounded := by
  intro a b ha hb h0
  rw [Ne, units_eq_zero_iff] at h0
  have hpos : magUnits (magBits b) ≠ 0 := fun h => h0 ((magUnits_eq_zero_iff _).mp h)
  have hquot : units a * 2 ^ 149 * (units b).sign =
      signed (signOf a != signOf b) (magUnits (magBits a) * 2 ^ 149) := by
    have hscale := signed_mul_natCast (signOf a) (magUnits (magBits a)) (2 ^ 149)
    rw [Nat.cast_pow, Nat.cast_ofNat] at hscale
    rw [units_eq_signed a, units_eq_signed b, signed_sign _ hpos, hscale, signed_mul, Nat.mul_one]
  rw [hquot, units_eq_signed b, signed_natAbs, fdiv_of_isFinite ha hb h0]
  exact ⟨correctlyRounded_packNum (Nat.pos_of_ne_zero hpos) _ _, signOf_packNum _ (roundMag_le _ _)⟩

/-! ### The operations on infinities and NaN -/

section Infinite

variable {a b : Num32} (ha : isInf a = true)

include ha

theorem fadd_inf_finite (hb : isFinite b = true) : fadd a b = a := by
  simp [fadd, isNaN_of_isInf ha, isNaN_of_isFinite hb, ha, isInf_of_isFinite hb]

theorem fadd_finite_inf (hb : isFinite b = true) : fadd b a = a := by
  simp [fadd, isNaN_of_isInf ha, isNaN_of_isFinite hb, ha, isInf_of_isFinite hb]

/-- Infinities of one sign add up to it, and those of different signs to a NaN. -/
theorem fadd_inf_inf (hb : isInf b = true) :
    fadd a b = if signOf a = signOf b then a else quietNaN := by
  by_cases h : signOf a = signOf b <;> simp [fadd, isNaN_of_isInf ha, isNaN_of_isInf hb, ha, hb, h]

/-- A product with an infinity: a NaN where the other factor is a zero, an infinity otherwise. -/
theorem fmul_inf_left (hb : isNaN b = false) :
    fmul a b = if magBits b = 0 then quietNaN else packNum (signOf a != signOf b) infBits := by
  have hmag : magBits a ≠ 0 := by rw [(isInf_iff a).mp ha]; decide
  simp [fmul, isNaN_of_isInf ha, hb, ha, hmag]

theorem fmul_inf_right (hb : isNaN b = false) :
    fmul b a = if magBits b = 0 then quietNaN else packNum (signOf b != signOf a) infBits := by
  have hmag : magBits a ≠ 0 := by rw [(isInf_iff a).mp ha]; decide
  simp [fmul, isNaN_of_isInf ha, hb, ha, hmag]

theorem fdiv_inf_inf (hb : isInf b = true) : fdiv a b = quietNaN := by
  simp [fdiv, isNaN_of_isInf ha, isNaN_of_isInf hb, ha, hb]

theorem fdiv_inf_finite (hb : isFinite b = true) :
    fdiv a b = packNum (signOf a != signOf b) infBits := by
  simp [fdiv, isNaN_of_isInf ha, isNaN_of_isFinite hb, ha, isInf_of_isFinite hb]

theorem fdiv_finite_inf (hb : isFinite b = true) : fdiv b a = packNum (signOf b != signOf a) 0 := by
  simp [fdiv, isNaN_of_isInf ha, isNaN_of_isFinite hb, ha, isInf_of_isFinite hb]

end Infinite

/-- A finite value over a zero: a NaN where it is a zero itself, an infinity otherwise. -/
theorem fdiv_by_zero {a b : Num32} (ha : isFinite a = true) (hb : isFinite b = true)
    (h0 : magBits b = 0) :
    fdiv a b = if magBits a = 0 then quietNaN else packNum (signOf a != signOf b) infBits := by
  simp [fdiv, isNaN_of_isFinite ha, isNaN_of_isFinite hb, isInf_of_isFinite ha,
    isInf_of_isFinite hb, h0]

/-- Settles O59, by the kinds of the two operands. -/
theorem infinitiesAndNaNsAreCarried : Obligations.InfinitiesAndNaNsAreCarried := by
  intro a b
  refine ⟨fun h => ?nan, fun ha hb => ?addFinite, fun ha hb => ?addInf, fun ha hb h0 => ?mulZero,
    fun ha hb h0 => ?mul, fun ha hb => ?divInf, fun ha hb => ?infDiv, fun ha hb => ?finiteDiv,
    fun ha hb h0 => ?divZero⟩
  case nan => simp [fadd_nan h, fsub_nan h, fmul_nan h, fdiv_nan h]
  case addFinite =>
    have hneg : isInf (fneg a) = true := (isInf_fneg a).trans ha
    have hsub : fsub b a = fneg a := fadd_finite_inf hneg hb
    refine ⟨fadd_inf_finite ha hb, fadd_finite_inf ha hb,
      fadd_inf_finite ha ((isFinite_fneg b).trans hb), ?_, ?_⟩
    · rw [hsub]; exact hneg
    · rw [hsub]; exact signOf_fneg a
  case addInf =>
    have hsub := fadd_inf_inf ha ((isInf_fneg b).trans hb)
    rw [signOf_fneg] at hsub
    refine ⟨fun h => ⟨?_, ?_⟩, fun h => ⟨?_, ?_⟩⟩
    · rw [fadd_inf_inf ha hb, if_pos h]
    · rw [fsub, hsub, if_neg (by simp [h])]; exact isNaN_quietNaN
    · rw [fadd_inf_inf ha hb, if_neg h]; exact isNaN_quietNaN
    · rw [fsub, hsub, if_pos (Bool.eq_not_of_ne h)]
  case mulZero =>
    have hmag := (units_eq_zero_iff b).mp h0
    rw [fmul_inf_left ha (isNaN_of_isFinite hb), fmul_inf_right ha (isNaN_of_isFinite hb), if_pos hmag,
      if_pos hmag]
    exact ⟨isNaN_quietNaN, isNaN_quietNaN⟩
  case mul =>
    have hmag : magBits b ≠ 0 := fun h =>
      h0 ⟨(isFinite_iff b).mpr (h ▸ by decide), (units_eq_zero_iff b).mpr h⟩
    rw [fmul_inf_left ha hb, fmul_inf_right ha hb, if_neg hmag, if_neg hmag, bne_comm]
    exact ⟨isInf_packNum _, signOf_packNum _ le_rfl, rfl⟩
  case divInf => rw [fdiv_inf_inf ha hb]; exact isNaN_quietNaN
  case infDiv =>
    rw [fdiv_inf_finite ha hb]
    exact ⟨isInf_packNum _, signOf_packNum _ le_rfl⟩
  case finiteDiv =>
    have hmag := magBits_packNum (signOf a != signOf b) (Nat.zero_le infBits)
    rw [fdiv_finite_inf hb ha, isFinite_iff, units_eq_zero_iff, hmag]
    exact ⟨by decide, rfl, signOf_packNum _ (Nat.zero_le _)⟩
  case divZero =>
    rw [units_eq_zero_iff] at h0
    rw [fdiv_by_zero ha hb h0, Ne, units_eq_zero_iff]
    refine ⟨fun h => ?_, fun h => ?_⟩
    · rw [if_pos h]; exact isNaN_quietNaN
    · rw [if_neg h]; exact ⟨isInf_packNum _, signOf_packNum _ le_rfl⟩

/-! ### The profile `F32` on encodings -/

theorem toNat_dec32 {x : Nat} (h : x < 2 ^ 32) : (dec32 x).toNat = x := by
  rw [dec32, BitVec.toNat_ofNat, Nat.mod_eq_of_lt h]

/-- Settles O60: the primitives by definition, `dec` and `enc` by the width, `fabs` by its mask. -/
theorem f32WorksOnEncodings : Obligations.F32WorksOnEncodings :=
  ⟨rfl, rfl, dec32_toNat, fun _ => toNat_dec32, fun x => ⟨signOf_fabs x, magBits_fabs x⟩,
    fun _ _ => ⟨rfl, rfl, rfl, rfl, rfl, rfl⟩⟩

end Sys2Proof.Machine

/-! PROOFS. The tick on special values (spec/40_pid_tick.md section 3): NaN, infinities, an integrator at its
bound, and exact rationals. -/

namespace Sys2Proof.Machine

/-! ### The fault on NaN (R122) -/

/-- A NaN among the values of a tick is a NaN of `F32`. -/
theorem TickLocals.hasNaN_iff {P : Profile} {l : TickLocals Nat} :
    l.hasNaN (profileArith P) = true ↔
      P = .f32 ∧ (isNaN (Machine.dec32 l.a) = true ∨ isNaN (Machine.dec32 l.e) = true ∨
        isNaN (Machine.dec32 l.i1) = true ∨ isNaN (Machine.dec32 l.d) = true ∨
        isNaN (Machine.dec32 l.out) = true) := by
  cases P with
  | f32 => simp [TickLocals.hasNaN, or_assoc]
  | other nw => simp [TickLocals.hasNaN_other]

/-- Settles O24: the pseudocode's values are the local values of the tick. -/
theorem tickFaultsExactlyOnNaN : Obligations.TickFaultsExactlyOnNaN := by
  rintro s _ a e i1 d out rfl rfl rfl rfl rfl rfl
  have hnan : s.localsNaN = true ↔ _ := TickLocals.hasNaN_iff (l := s.locals)
  rw [exec_tick_fault_iff, hnan]
  exact and_left_comm

/-- Settles O27: a tick that completes has passed the test for NaN on the values it writes. -/
theorem tickNeverStoresNaN : Obligations.TickNeverStoresNaN := by
  intro s t hnum hgate h
  obtain ⟨hgated, -⟩ | ⟨-, hn, rfl⟩ := exec_tick_next h
  · rw [hgate] at hgated; cases hgated
  · have hlocals : s.locals.hasNaN (profileArith .f32) = false := hnum ▸ hn
    obtain ⟨-, he, hi1, -, hout⟩ := TickLocals.not_nan hlocals
    exact ⟨hi1, he, hout⟩

/-! ### Operations that give no NaN -/

theorem isFinite_or_isInf {x : Num32} (h : isNaN x = false) : isFinite x = true ∨ isInf x = true := by
  simp only [isNaN, isFinite, isInf, decide_eq_true_eq, decide_eq_false_iff_not] at *
  omega

theorem isFinite_of_not_isInf {x : Num32} (h : isNaN x = false) (h' : isInf x = false) :
    isFinite x = true :=
  (isFinite_or_isInf h).resolve_right (by simp [h'])

theorem isNaN_packNum {mag : Nat} (neg : Bool) (h : mag ≤ infBits) : isNaN (packNum neg mag) = false := by
  rw [isNaN, magBits_packNum neg h]
  exact decide_eq_false (Nat.not_lt.mpr h)

theorem isNaN_fmul {a b : Num32} (ha : isFinite a = true) (hb : isFinite b = true) :
    isNaN (fmul a b) = false := by
  rw [fmul_of_isFinite ha hb]
  exact isNaN_packNum _ (roundMag_le _ _)

/-- A quotient by a finite value that is not zero. -/
theorem isNaN_fdiv {a b : Num32} (ha : isNaN a = false) (hb : isFinite b = true) (h0 : magBits b ≠ 0) :
    isNaN (fdiv a b) = false := by
  obtain ha | ha := isFinite_or_isInf ha
  · rw [fdiv_of_isFinite ha hb h0]
    exact isNaN_packNum _ (roundMag_le _ _)
  · rw [fdiv_inf_finite ha hb]
    exact isNaN_packNum _ le_rfl

theorem isNaN_fadd_of_isFinite {a b : Num32} (ha : isFinite a = true) (hb : isFinite b = true) :
    isNaN (fadd a b) = false := by
  by_cases h : units a + units b = 0
  · rw [fadd_of_sum_zero ha hb h]
    exact isNaN_packNum _ (Nat.zero_le _)
  · rw [fadd_of_sum_ne_zero ha hb h]
    exact isNaN_packNum _ (roundMag_le _ _)

/-- A sum with a finite value, on either side. -/
theorem isNaN_fadd {a b : Num32} (ha : isNaN a = false) (hb : isFinite b = true) :
    isNaN (fadd a b) = false ∧ isNaN (fadd b a) = false := by
  obtain ha' | ha' := isFinite_or_isInf ha
  · exact ⟨isNaN_fadd_of_isFinite ha' hb, isNaN_fadd_of_isFinite hb ha'⟩
  · rw [fadd_inf_finite ha' hb, fadd_finite_inf ha' hb]
    exact ⟨ha, ha⟩

theorem isNaN_fsub_of_isFinite {a b : Num32} (ha : isFinite a = true) (hb : isFinite b = true) :
    isNaN (fsub a b) = false :=
  isNaN_fadd_of_isFinite ha ((isFinite_fneg b).trans hb)

/-! ### The order in terms of the number `flt` compares -/

theorem flt_eq_false_iff {a b : Num32} (ha : isNaN a = false) (hb : isNaN b = false) :
    flt a b = false ↔ fltKey b ≤ fltKey a := by
  rw [Bool.eq_false_iff, Ne, flt_iff]
  simp [ha, hb]

theorem fltKey_le_fltKey_iff (a b : Num32) : fltKey a ≤ fltKey b ↔ units a ≤ units b := by
  rw [← Int.not_lt, ← Int.not_lt, units_lt_units_iff]

theorem fltKey_natAbs (x : Num32) : (fltKey x).natAbs = magBits x := signed_natAbs _ _

/-- A value between finite ones is finite. -/
theorem isFinite_of_between {x lo hi : Num32} (hlo : isFinite lo = true) (hhi : isFinite hi = true)
    (h : fltKey lo ≤ fltKey x) (h' : fltKey x ≤ fltKey hi) : isFinite x = true := by
  rw [isFinite_iff, ← fltKey_natAbs] at hlo hhi ⊢
  omega

/-- A clamp between finite bounds answers a finite value, for everything but a NaN. -/
theorem isFinite_clamp {v lo hi : Num32} (hv : isNaN v = false) (hlo : isFinite lo = true)
    (hhi : isFinite hi = true) : isFinite (clamp f32 v lo hi) = true := by
  obtain ⟨heq, -⟩ | ⟨heq, -⟩ | ⟨heq, hvlo, hhiv⟩ := clamp_cases f32 v lo hi <;> rw [heq]
  · exact hlo
  · exact hhi
  · exact isFinite_of_between hlo hhi ((flt_eq_false_iff hv (isNaN_of_isFinite hlo)).mp hvlo)
      ((flt_eq_false_iff (isNaN_of_isFinite hhi) hv).mp hhiv)

/-! ### What a good configuration says under `F32` (00_scope.md R10) -/

section ConfigF32

variable {s : State} (hnum : s.num = .f32) (hok : s.configOk = true)

include hnum hok

theorem State.paramsOk_f32 : paramsOk (profileArith .f32) s.params = true :=
  hnum ▸ (s.configOk_iff.mp hok).1

theorem State.isFinite_params : ∀ v ∈ s.params.toList, isFinite (dec32 v) = true := by
  obtain ⟨-, -, -, -, -, -, hfinite⟩ := (paramsOk_iff _ _).mp (State.paramsOk_f32 hnum hok)
  exact hfinite

/-- The sampling period is positive. -/
theorem State.period_pos : 0 < fltKey (dec32 s.params.period) := by
  obtain ⟨hperiod, -⟩ := (paramsOk_iff _ _).mp (State.paramsOk_f32 hnum hok)
  exact ((flt_iff _ _).mp hperiod).2.2

/-- The integrator's bounds are in order. -/
theorem State.intMin_le_intMax : fltKey (dec32 s.params.intMin) ≤ fltKey (dec32 s.params.intMax) := by
  obtain ⟨-, -, hint, -⟩ := (paramsOk_iff _ _).mp (State.paramsOk_f32 hnum hok)
  obtain ⟨hlo, hhi, hlt⟩ := (numLe_f32_iff _ _).mp hint
  exact (flt_eq_false_iff hhi hlo).mp hlt

end ConfigF32

/-- Under `F32` the test for NaN is made on the values behind the local values of the tick. -/
theorem State.localsNaN_f32 {s : State} (hnum : s.num = .f32) :
    s.localsNaN = (tickLocals f32 (PidParams.dec32 s.params) s.regs.dec32).hasNaN f32 := by
  rw [← tickLocals_f32, State.localsNaN, State.locals, State.arith, hnum]
  rfl

/-! ### Finite registers (R122) -/

/-- Settles O25: with finite arguments each operation gives no NaN, and what is not infinite is finite for
the next one. -/
theorem finiteTickWithoutOverflowCompletes : Obligations.FiniteTickWithoutOverflowCompletes := by
  intro s e i1 d hnum hok hregs he hi1 hd heInf hdInf hpInf hiInf hdProdInf
  simp only [List.forall_mem_cons] at hregs
  obtain ⟨hkp, hki, hkd, hsp, hint, hlast, hact, -⟩ := hregs
  have hparams := State.isFinite_params hnum hok
  simp only [PidParams.toList, List.forall_mem_cons] at hparams
  obtain ⟨hperiod, hinMin, hinMax, hintMin, hintMax, -⟩ := hparams
  have hperiod0 : magBits (dec32 s.params.period) ≠ 0 := by
    have hpos := State.period_pos hnum hok
    rw [← fltKey_natAbs]
    omega
  have ha := isFinite_clamp (isNaN_of_isFinite hact) hinMin hinMax
  have heNaN : isNaN e = false := he ▸ isNaN_fsub_of_isFinite hsp ha
  have heFin := isFinite_of_not_isInf heNaN heInf
  have hi1Fin : isFinite i1 = true :=
    hi1 ▸ isFinite_clamp (isNaN_fadd (isNaN_fmul heFin hperiod) hint).2 hintMin hintMax
  have hdNaN : isNaN d = false := hd ▸ isNaN_fdiv (isNaN_fsub_of_isFinite heFin hlast) hperiod hperiod0
  have hdFin := isFinite_of_not_isInf hdNaN hdInf
  have hpProd := isFinite_of_not_isInf (isNaN_fmul hkp heFin) hpInf
  have hiProd := isFinite_of_not_isInf (isNaN_fmul hki hi1Fin) hiInf
  have hdProd := isFinite_of_not_isInf (isNaN_fmul hkd hdFin) hdProdInf
  have hsum := isNaN_fadd_of_isFinite hpProd hiProd
  have hout := isFinite_clamp (isNaN_fadd hsum hdProd).1 hinMin hinMax
  subst he hi1 hd
  have hnan : s.localsNaN = false := by
    rw [State.localsNaN_f32 hnum]
    simp only [TickLocals.hasNaN, Bool.or_eq_false_iff]
    exact ⟨⟨⟨⟨isNaN_of_isFinite ha, heNaN⟩, isNaN_of_isFinite hi1Fin⟩, hdNaN⟩,
      isNaN_of_isFinite hout⟩
  cases hg : s.lockedOut with
  | true => exact ⟨s, exec_tick_of_gated hg⟩
  | false => exact ⟨s.ticked, exec_tick_of_run hg hnan⟩

/-! ### An integrator at its bound (R114) -/

/-- Everything a product can be: the NaN of an invalid operation, or a value with the product's sign. -/
theorem fmul_cases (a b : Num32) :
    fmul a b = quietNaN ∨ ∃ mag ≤ infBits, fmul a b = packNum (signOf a != signOf b) mag := by
  unfold fmul
  split
  · exact .inl rfl
  · split
    · split
      · exact .inl rfl
      · exact .inr ⟨infBits, le_rfl, rfl⟩
    · exact .inr ⟨_, roundMag_le _ _, rfl⟩

theorem signOf_fmul {a b : Num32} (h : isNaN (fmul a b) = false) :
    signOf (fmul a b) = (signOf a != signOf b) := by
  obtain hnan | ⟨mag, hmag, hpack⟩ := fmul_cases a b
  · rw [hnan] at h
    cases h
  · rw [hpack, signOf_packNum _ hmag]

/-- A finite value lies below the magnitudes that overflow. -/
theorem units_natAbs_lt {x : Num32} (h : isFinite x = true) : (units x).natAbs < overflowUnits := by
  have hle : magBits x ≤ infBits - 1 := Nat.le_sub_one_of_lt ((isFinite_iff x).mp h)
  rw [units_eq_signed, signed_natAbs]
  calc magUnits (magBits x)
    _ ≤ magUnits (infBits - 1) := magUnits_strictMono.monotone hle
    _ < overflowUnits := by decide +kernel

/-- Rounding takes a sum with a finite value that is not negative no lower than the other operand, since that
operand is nearer; and no higher, for one that is not positive. -/
theorem fadd_monotone_of_isFinite {a x : Num32} (ha : isFinite a = true) (hx : isFinite x = true) :
    (0 ≤ units x → fltKey a ≤ fltKey (fadd a x)) ∧
      (units x ≤ 0 → fltKey (fadd a x) ≤ fltKey a) := by
  obtain ⟨⟨hsign, hfinite, hoverflow⟩, -⟩ := fadd_correctlyRounded ha hx
  obtain hlt | hge := Nat.lt_or_ge (units a + units x).natAbs (overflowUnits * 1)
  · obtain ⟨hnear, -⟩ := (hfinite hlt).2 a ha
    rw [fltKey_le_fltKey_iff, fltKey_le_fltKey_iff]
    omega
  · have hbound := units_natAbs_lt ha
    have hkey : fltKey (fadd a x) = signed (decide (units a + units x < 0)) infBits := by
      rw [fltKey_eq_signed, hsign (by omega), (isInf_iff _).mp (hoverflow hge)]
    have hakey := fltKey_natAbs a
    have hainf := (isFinite_iff a).mp ha
    rw [hkey]
    by_cases hneg : units a + units x < 0 <;> simp only [hneg, decide_true, decide_false, signed_true,
      signed_false] <;> omega

/-- The sign of what is added to a finite value tells the direction, an infinity included. -/
theorem fadd_monotone {a x : Num32} (ha : isFinite a = true) (hx : isNaN x = false) :
    (signOf x = false → fltKey a ≤ fltKey (fadd a x)) ∧
      (signOf x = true → fltKey (fadd a x) ≤ fltKey a) := by
  obtain hx' | hx' := isFinite_or_isInf hx
  · obtain ⟨hup, hdown⟩ := fadd_monotone_of_isFinite ha hx'
    refine ⟨fun hs => hup ?_, fun hs => hdown ?_⟩ <;> simp [units_eq_signed, hs]
  · have hainf := (isFinite_iff a).mp ha
    have hakey := fltKey_natAbs a
    rw [fadd_finite_inf hx' ha, fltKey_eq_signed x, (isInf_iff x).mp hx']
    refine ⟨fun hs => ?_, fun hs => ?_⟩ <;> simp only [hs, signed_true, signed_false] <;> omega

/-- The order of a clamp's answer is the clamp of the order. -/
theorem fltKey_clamp {v lo hi : Num32} (hv : isNaN v = false) (hlo : isNaN lo = false)
    (hhi : isNaN hi = false) (hle : fltKey lo ≤ fltKey hi) :
    fltKey (clamp f32 v lo hi) = max (fltKey lo) (min (fltKey v) (fltKey hi)) := by
  obtain ⟨heq, h⟩ | ⟨heq, h, h'⟩ | ⟨heq, h, h'⟩ := clamp_cases f32 v lo hi <;> rw [heq]
  · obtain ⟨-, -, hlt⟩ := (flt_iff _ _).mp h
    omega
  · obtain ⟨-, -, hlt⟩ := (flt_iff _ _).mp h'
    omega
  · have hlov := (flt_eq_false_iff hv hlo).mp h
    have hvhi := (flt_eq_false_iff hhi hv).mp h'
    omega

theorem signOf_of_fltKey_pos {x : Num32} (h : 0 < fltKey x) : signOf x = false := by
  rw [fltKey_eq_signed] at h
  cases hs : signOf x with
  | false => rfl
  | true => rw [hs, signed_true] at h; omega

theorem signOf_of_fltKey_neg {x : Num32} (h : fltKey x < 0) : signOf x = true := by
  rw [fltKey_eq_signed] at h
  cases hs : signOf x with
  | true => rfl
  | false => rw [hs, signed_false] at h; omega

theorem tickIntegral_f32 (p : PidParams Num32) (r : PidRegs Num32) (e : Num32) :
    tickIntegral f32 p r e = clamp f32 (fadd r.integral (fmul e p.period)) p.intMin p.intMax := rfl

/-- An integrator at a finite bound, by its value: the product has the error's sign, so the sum lies at the
bound or beyond it, and the clamp brings it back. -/
theorem fltKey_tickIntegral_of_saturated {p : PidParams Num32} {r : PidRegs Num32} {e : Num32}
    (hlo : isFinite p.intMin = true) (hhi : isFinite p.intMax = true)
    (hle : fltKey p.intMin ≤ fltKey p.intMax) (hperiod : 0 < fltKey p.period)
    (hnan : isNaN (tickIntegral f32 p r e) = false) :
    (0 < fltKey e → fltKey r.integral = fltKey p.intMax →
      fltKey (tickIntegral f32 p r e) = fltKey p.intMax) ∧
    (fltKey e < 0 → fltKey r.integral = fltKey p.intMin →
      fltKey (tickIntegral f32 p r e) = fltKey p.intMin) := by
  rw [tickIntegral_f32] at hnan ⊢
  have hsum : isNaN (fadd r.integral (fmul e p.period)) = false := by
    by_contra h
    rw [Bool.not_eq_false] at h
    rw [clamp_nan _ _ h, h] at hnan
    cases hnan
  have hprod : isNaN (fmul e p.period) = false := by
    by_contra h
    rw [Bool.not_eq_false] at h
    rw [fadd_nan (.inr h)] at hsum
    cases hsum
  have hsign := signOf_fmul hprod
  rw [signOf_of_fltKey_pos hperiod, Bool.bne_false] at hsign
  rw [fltKey_clamp hsum (isNaN_of_isFinite hlo) (isNaN_of_isFinite hhi) hle]
  have hmono (hfin : isFinite r.integral = true) := fadd_monotone hfin hprod
  refine ⟨fun he hat => ?_, fun he hat => ?_⟩
  · have hfin := isFinite_of_between hhi hhi hat.ge hat.le
    have hup := (hmono hfin).1 (hsign.trans (signOf_of_fltKey_pos he))
    omega
  · have hfin := isFinite_of_between hlo hlo hat.ge hat.le
    have hdown := (hmono hfin).2 (hsign.trans (signOf_of_fltKey_neg he))
    omega

/-- Two values are equal to the comparison exactly where neither lies below the other. -/
theorem fltKey_eq_iff {a b : Num32} (ha : isNaN a = false) (hb : isNaN b = false) :
    fltKey a = fltKey b ↔ flt a b = false ∧ flt b a = false := by
  rw [flt_eq_false_iff ha hb, flt_eq_false_iff hb ha]
  omega

/-- The value behind the integrator's new encoding. -/
theorem State.dec32_i1 {s : State} (hnum : s.num = .f32) :
    Machine.dec32 s.locals.i1 =
      tickIntegral f32 (PidParams.dec32 s.params) s.regs.dec32 (Machine.dec32 s.locals.e) := by
  rw [locals, arith, hnum]
  simp [tickLocals, tickIntegral, f32, PidParams.dec32, PidRegs.dec32]

/-- Settles O29, on the values behind the encodings. -/
theorem saturatedIntegratorStaysAtItsBound : Obligations.SaturatedIntegratorStaysAtItsBound := by
  rintro s t _ e rfl hnum hok hgate h hI he
  obtain rfl : e = s.locals.e := he
  obtain ⟨hgated, -⟩ | ⟨-, hn, rfl⟩ := exec_tick_next h
  · rw [hgate] at hgated; cases hgated
  have hlocals : s.locals.hasNaN (profileArith .f32) = false := hnum ▸ hn
  obtain ⟨-, -, hi1, -, -⟩ := TickLocals.not_nan hlocals
  have hparams := State.isFinite_params hnum hok
  simp only [PidParams.toList, List.forall_mem_cons] at hparams
  obtain ⟨-, -, -, hlo, hhi, -⟩ := hparams
  have hvalue := State.dec32_i1 hnum
  obtain ⟨hup, hdown⟩ := fltKey_tickIntegral_of_saturated (p := PidParams.dec32 s.params)
    (r := s.regs.dec32) (e := dec32 s.locals.e) hlo hhi (State.intMin_le_intMax hnum hok)
    (State.period_pos hnum hok) (hvalue ▸ hi1)
  rw [← hvalue] at hup hdown
  have hzero : fltKey (dec32 0) = 0 := by decide
  simp only [State.arith, hnum, arith_f32_flt, arith_f32_zero]
  refine ⟨fun he h1 h2 => ?_, fun he h1 h2 => ?_⟩
  · have hpos : 0 < fltKey (dec32 s.locals.e) := hzero ▸ ((flt_iff _ _).mp he).2.2
    have hat := (fltKey_eq_iff hI (isNaN_of_isFinite hhi)).mpr ⟨h1, h2⟩
    exact (fltKey_eq_iff hi1 (isNaN_of_isFinite hhi)).mp (hup hpos hat)
  · have hneg : fltKey (dec32 s.locals.e) < 0 := hzero ▸ ((flt_iff _ _).mp he).2.2
    have hat := (fltKey_eq_iff hI (isNaN_of_isFinite hlo)).mpr ⟨h1, h2⟩
    exact (fltKey_eq_iff hi1 (isNaN_of_isFinite hlo)).mp (hdown hneg hat)

/-! ### Exact rationals (profile `Q`, 90_conflicts.md C9) -/

/-- Settles O32: no exact value is a NaN, and a clamp between ordered bounds lies between them. -/
theorem exactTickNeverFaults : Obligations.ExactTickNeverFaults := by
  intro p r hok
  obtain ⟨-, hin, hint, -⟩ := (paramsOk_iff _ _).mp hok
  have hirr : ∀ x, profileQ.flt x x = false := fun x => decide_eq_false (lt_irrefl x)
  obtain ⟨hg, htick⟩ | ⟨-, hnan, -⟩ | ⟨-, -, htick⟩ := pidTick_cases profileQ p r
  · exact ⟨r, htick, id, fun h => by rw [hg] at h; cases h⟩
  · cases hnan
  · obtain ⟨hlo, hhi⟩ := clamp_between_of_irrefl _ hirr (not_flt_of_numLe hin)
    refine ⟨_, htick, fun _ => ⟨rfl, clamp_between_of_irrefl _ hirr (not_flt_of_numLe hint)⟩,
      fun _ => ⟨?_, ?_⟩⟩
    · exact not_lt.mp (of_decide_eq_false hlo)
    · exact not_lt.mp (of_decide_eq_false hhi)

end Sys2Proof.Machine

/-! PROOFS. A push and a pop that succeed (spec/42_fifo.md), a channel as a queue, and the widths of the status
outputs (spec/00_scope.md section 4). -/

namespace Sys2Proof.Machine

/-! ### A push and a pop that succeed (R150, R152) -/

/-- The item of a well-formed push fits the elements of its channel. -/
theorem item_lt_of_wellFormed {s : State} {ch : Nat} {item : Elem} {c : Channel}
    (hc : s.chans[ch]? = some c) (h : (Instr.push ch item).wellFormed s.widths = true) :
    item < 2 ^ c.params.w := by
  simpa [Instr.wellFormed, hc] using h

/-- Settles O38: the state after the push, written out. -/
theorem pushStoresAtTheWriteIndex : Obligations.PushStoresAtTheWriteIndex := by
  intro s ch item c hc hwf hroom
  have hitem : lowBits c.params.w item = item := Nat.mod_eq_of_lt (item_lt_of_wellFormed hc hwf)
  refine ⟨_, c.push item, exec_push_of_some hc item, getElem?_set_self_of_some _ hc, ?_⟩
  rw [Channel.push_of_room item hroom, hitem]
  exact ⟨Memory.read_write_same _ _ _, fun i hi => Memory.read_write_other _ _ _ _ hi, rfl, rfl, rfl,
    rfl, rfl, rfl, rfl, fun _ hk => List.getElem?_set_ne hk.symm, rfl, rfl, rfl, rfl, rfl, rfl⟩

/-- Settles O40: the state after the pop, written out; a stored element is the one returned. -/
theorem popTakesTheElementAtTheReadIndex : Obligations.PopTakesTheElementAtTheReadIndex := by
  intro s ch c hc hne
  refine ⟨_, c.pop (s.stale ch), c.fifo.head c.params (s.stale ch), exec_pop_of_some hc,
    getElem?_set_self_of_some _ hc, ?_⟩
  rw [Channel.pop_of_stored _ hne]
  refine ⟨rfl, fun y hy => Fifo.head_of_stored _ hy, fun _ => rfl, rfl, rfl, rfl, rfl, rfl,
    fun hle => ?notFull, fun _ hk => List.getElem?_set_ne hk.symm, rfl, rfl, rfl, rfl, rfl, rfl⟩
  case notFull =>
    rw [Fifo.not_full_iff]
    exact Nat.ne_of_lt (Nat.lt_of_lt_of_le (Nat.sub_one_lt hne) hle)

/-! ### The contents as a queue (R154) -/

/-- Settles O44, from the invariant and the contents after each update. -/
theorem contentsBehaveAsAQueue : Obligations.ContentsBehaveAsAQueue := by
  intro c item st hinv hitem
  have hlow : lowBits c.params.w item = item := Nat.mod_eq_of_lt hitem
  refine ⟨c.push_inv item hinv, c.pop_inv st hinv, c.pushPop_inv st item hinv, fun hroom => ?push,
    fun hne => ?pop⟩
  case push => rw [Channel.push_contents item hinv.indices hroom, hlow]
  case pop =>
    obtain ⟨x, hout, hcontents⟩ := Channel.pop_of_inv st hinv hne
    exact ⟨x, by rw [hout], hcontents⟩

/-! ### Widths (spec/00_scope.md section 4) -/

/-- `ceil(log2(n))` is the least width that holds `n` values. -/
theorem ceilLog2_spec {n : Nat} (h : 2 ≤ n) : 2 ^ (ceilLog2 n - 1) < n ∧ n ≤ 2 ^ ceilLog2 n := by
  have hn : ceilLog2 n = Nat.log2 (n - 1) + 1 := if_neg (by omega)
  have hlow : 2 ^ Nat.log2 (n - 1) ≤ n - 1 := Nat.log2_self_le (by omega)
  have hhigh : n - 1 < 2 ^ (Nat.log2 (n - 1) + 1) := Nat.lt_log2_self
  rw [hn, Nat.add_sub_cancel]
  omega

theorem indexWidth_of_two_le {cap : Nat} (h : 2 ≤ cap) : indexWidth cap = ceilLog2 cap := by
  have hn : ceilLog2 cap = Nat.log2 (cap - 1) + 1 := if_neg (by omega)
  rw [indexWidth, hn]
  omega

/-- Every index of a channel fits the index width. -/
theorem le_two_pow_indexWidth {cap : Nat} (h : 1 ≤ cap) : cap ≤ 2 ^ indexWidth cap := by
  obtain rfl | h2 := h.eq_or_lt
  · decide
  · rw [indexWidth_of_two_le h2]
    exact (ceilLog2_spec h2).2

theorem countWidth_spec {cap : Nat} (h : 1 ≤ cap) :
    2 ^ (countWidth cap - 1) < cap + 1 ∧ cap + 1 ≤ 2 ^ countWidth cap :=
  ceilLog2_spec (Nat.succ_le_succ h)

/-- A number shown on enough wires is shown unchanged. -/
theorem toNat_ofNat_of_lt {w n : Nat} (h : n < 2 ^ w) : (BitVec.ofNat w n).toNat = n := by
  rw [BitVec.toNat_ofNat, Nat.mod_eq_of_lt h]

/-- The status outputs of a channel under its invariant. -/
theorem Channel.status_of_inv {c : Channel} (h : c.Inv) :
    c.status.wrQ.toNat = c.fifo.wr ∧ c.status.rdQ.toNat = c.fifo.rd ∧
      c.status.countQ.toNat = c.fifo.count := by
  obtain ⟨hcap, -⟩ := (chanParamsOk_iff _).mp h.params
  have hindex := le_two_pow_indexWidth hcap
  obtain ⟨-, hcount⟩ := countWidth_spec hcap
  exact ⟨toNat_ofNat_of_lt (h.indices.wr_lt.trans_le hindex),
    toNat_ofNat_of_lt (h.indices.rd_lt.trans_le hindex),
    toNat_ofNat_of_lt ((Nat.lt_succ_of_le h.indices.count_le).trans_le hcount)⟩

/-- Settles O43: each width holds the values the invariant allows, and one bit less does not. -/
theorem statusOutputsShowTheIndices : Obligations.StatusOutputsShowTheIndices := by
  refine ⟨fun c => Channel.status_of_inv, fun cap h => ?index, fun cap => countWidth_spec,
    fun s hinv => ?pid⟩
  case index => rw [indexWidth_of_two_le h]; exact ceilLog2_spec h
  case pid =>
    have hwidths := hinv.widths
    simp only [PidRegs.toList, List.forall_mem_cons] at hwidths
    obtain ⟨hkp, hki, hkd, hsp, hintegral, hlast, hact, hpv, -⟩ := hwidths
    exact ⟨toNat_ofNat_of_lt hkp, toNat_ofNat_of_lt hki, toNat_ofNat_of_lt hkd,
      toNat_ofNat_of_lt hsp, toNat_ofNat_of_lt hintegral, toNat_ofNat_of_lt hlast,
      toNat_ofNat_of_lt hact, toNat_ofNat_of_lt hpv⟩

end Sys2Proof.Machine

/-! PROOFS. Sequences of regulator operations (spec/41_pid_host.md, spec/70_reset_and_hazards.md section 3): a
command before a tick, and the lockout. -/

namespace Sys2Proof.Machine

/-! ### One command (R131, R132, R134) -/

/-- Settles O15: the state after the command, written out; the gate reads neither of its two registers. -/
theorem resetCommandClearsErrorMemory : Obligations.ResetCommandClearsErrorMemory := by
  refine ⟨fun _ _ => decodeCmd_cmdWord_reset, fun s => ⟨_, exec_reset s, rfl, fun hnum => ?_, rfl⟩⟩
  rw [State.arith, hnum, arith_f32_zero]

/-- Settles O18: the row of each code, and the one write of each command. -/
theorem setSpAndSetKiWriteOneRegister : Obligations.SetSpAndSetKiWriteOneRegister :=
  ⟨fun _ _ => decodeCmd_cmdWord_setSp, fun _ _ => decodeCmd_cmdWord_setKi,
    fun _ _ h => ⟨exec_setSp_of_lt h, exec_setKi_of_lt h⟩⟩

/-! ### A command, then a tick (R131, R136) -/

/-- The registers a tick does not write. -/
theorem pidTick_keeps {N : NumProfile α} {p : PidParams α} {r r' : PidRegs α}
    (h : pidTick N p r = some r') : r'.sp = r.sp ∧ r'.kp = r.kp ∧ r'.ki = r.ki ∧ r'.kd = r.kd := by
  obtain ⟨-, htick⟩ | ⟨-, -, htick⟩ | ⟨-, -, htick⟩ := pidTick_cases N p r
  · obtain rfl := Option.some.inj (htick.symm.trans h)
    exact ⟨rfl, rfl, rfl, rfl⟩
  · cases htick.symm.trans h
  · obtain rfl := Option.some.inj (htick.symm.trans h)
    exact ⟨rfl, rfl, rfl, rfl⟩

/-- A tick after an operation that leaves the registers `r` runs on them. -/
theorem exec_then_tick {i : Instr} {s : State} {r r' : PidRegs Nat}
    (hexec : exec i s = .next { s with regs := r }) (htick : pidTick s.arith s.params r = some r') :
    andThen (exec i s) (exec .tick) = .next { s with regs := r' } := by
  rw [hexec, andThen_next, exec_tick]
  exact congrArg (regsOutcome { s with regs := r }) htick

/-- Settles O19: the tick runs on the registers the setter leaves, and keeps the one it wrote. -/
theorem setterIsUsedByTheNextTick : Obligations.SetterIsUsedByTheNextTick := by
  intro s v hv
  refine ⟨fun r h => ?sp, fun r h => ?kp, fun r h => ?ki, fun r h => ?kd⟩ <;>
    obtain ⟨hsp, hkp, hki, hkd⟩ := pidTick_keeps h
  case sp => exact ⟨exec_then_tick (exec_setSp_of_lt hv) h, hsp⟩
  case kp => exact ⟨exec_then_tick (exec_setKp_of_lt hv) h, hkp⟩
  case ki => exact ⟨exec_then_tick (exec_setKi_of_lt hv) h, hki⟩
  case kd => exact ⟨exec_then_tick (exec_setKd_of_lt hv) h, hkd⟩

/-- Settles O16: after the command the seven registers a tick reads are those of a fresh regulator. -/
theorem resetThenTickEqualsFreshTick : Obligations.ResetThenTickEqualsFreshTick := by
  intro s t hkp hki hkd hsp hact htick
  obtain ⟨-, hsame⟩ := tickIsAFunctionOfSevenRegisters s.hardReset
    { s with regs := { s.regs with integral := s.arith.zero, lastError := s.arith.zero } }
    rfl rfl rfl rfl rfl rfl rfl hact.symm hsp.symm rfl rfl hkp.symm hki.symm hkd.symm
  obtain ⟨u, hu, hintegral, hlast, hactu, -⟩ := hsame t htick
  exact ⟨u, by rw [exec_reset, andThen_next, hu], hintegral, hlast, hactu⟩

/-! ### The lockout (spec/70_reset_and_hazards.md R222) -/

/-- The gate reads the profile, `ACT` and `EPS` alone. -/
theorem State.lockedOut_congr {s t : State} (hnum : t.num = s.num) (hparams : t.params = s.params)
    (hact : t.regs.act = s.regs.act) : t.lockedOut = s.lockedOut := by
  simp only [lockedOut, tickGated, arith, hnum, hparams, hact]

/-- The widths of the ports are constants. -/
theorem State.widths_of_constants {s t : State} (h : t.constants = s.constants) :
    t.widths = s.widths := by
  obtain ⟨hnum, -, hchans⟩ : t.num = s.num ∧ t.params = s.params ∧
      t.chans.map Channel.params = s.chans.map Channel.params := by
    simpa only [constants, Prod.mk.injEq] using h
  have hw (u : State) : u.widths = ⟨u.num.nw, (u.chans.map Channel.params).map ChanParams.w⟩ := by
    simp [widths, Function.comp_def]
  rw [hw, hw, hnum, hchans]

/-- No operation changes a constant. -/
theorem exec_constants {i : Instr} {s t : State} (h : exec i s = .next t) :
    t.constants = s.constants := by
  cases hb : blockOf i with
  | none =>
    obtain ⟨r, rfl⟩ := exec_next_of_blockOf_none hb h
    rfl
  | some ch =>
    cases i with
    | push k item =>
      obtain ⟨c, hc, rfl⟩ := onChannel_next h
      simp only [State.constants, map_params_set hc (c.push_params item)]
    | pop k =>
      obtain ⟨c, hc, rfl⟩ := onChannel_next h
      simp only [State.constants, map_params_set hc (c.pop_params _)]
    | _ => cases hb

/-- In a lockout no operation but `PID.WRACT` writes `ACT`. -/
theorem exec_keeps_act {i : Instr} {s t : State} (hlock : s.lockedOut = true)
    (hi : ∀ v, i ≠ .wrAct v) (h : exec i s = .next t) : t.regs.act = s.regs.act := by
  cases i with
  | wrAct v => exact absurd rfl (hi v)
  | tick =>
    rw [exec_tick_of_gated hlock] at h
    obtain rfl := Host.Outcome.next.inj h
    rfl
  | push ch item => obtain ⟨c, -, rfl⟩ := onChannel_next h; rfl
  | pop ch => obtain ⟨c, -, rfl⟩ := onChannel_next h; rfl
  | nop | reset | setSp v | setKp v | setKi v | setKd v | wrPv v =>
    obtain rfl := Host.Outcome.next.inj h
    rfl

/-- In a lockout every well-formed operation completes, the tick too. -/
theorem exec_completes_of_lockedOut {i : Instr} {s : State} (hlock : s.lockedOut = true)
    (hi : i.wellFormed s.widths = true) : ∃ t, exec i s = .next t := by
  obtain hnext | ⟨rfl, hfault⟩ := operationsNeverTrap s i hi
  · exact hnext
  · rw [exec_tick_of_gated hlock] at hfault
    cases hfault

/-- One operation in a lockout: it completes, and the lockout stays. -/
theorem exec_keeps_lockout {i : Instr} {s : State} (hlock : s.lockedOut = true)
    (hwf : i.wellFormed s.widths = true) (hi : ∀ v, i ≠ .wrAct v) :
    ∃ t, exec i s = .next t ∧ t.lockedOut = true ∧ t.regs.act = s.regs.act ∧
      t.widths = s.widths := by
  obtain ⟨t, ht⟩ := exec_completes_of_lockedOut hlock hwf
  have hconst := exec_constants ht
  have hact := exec_keeps_act hlock hi ht
  have hlock' : t.lockedOut = s.lockedOut :=
    State.lockedOut_congr (congrArg Prod.fst hconst) (congrArg (·.2.1) hconst) hact
  exact ⟨t, ht, hlock'.trans hlock, hact, State.widths_of_constants hconst⟩

theorem runOps_keeps_lockout {ops : List Instr} {s : State} (hlock : s.lockedOut = true)
    (hops : ∀ i ∈ ops, i.wellFormed s.widths = true ∧ ∀ v, i ≠ .wrAct v) :
    ∃ t, runOps ops s = .next t ∧ t.lockedOut = true ∧ t.regs.act = s.regs.act := by
  induction ops generalizing s with
  | nil => exact ⟨s, rfl, hlock, rfl⟩
  | cons i rest ih =>
    obtain ⟨⟨hwf, hi⟩, hrest⟩ := List.forall_mem_cons.mp hops
    obtain ⟨u, hu, hulock, huact, huwidths⟩ := exec_keeps_lockout hlock hwf hi
    obtain ⟨t, ht, htlock, htact⟩ := ih hulock (huwidths ▸ hrest)
    exact ⟨t, andThen_eq_next.mpr ⟨u, hu, ht⟩, htlock, htact.trans huact⟩

theorem runOps_ticks_of_lockedOut (n : Nat) {s : State} (hlock : s.lockedOut = true) :
    runOps (List.replicate n .tick) s = .next s := by
  induction n with
  | zero => rfl
  | succ n ih => rw [List.replicate_succ, runOps, exec_tick_of_gated hlock, andThen_next, ih]

/-- Settles O31, by induction on the sequence of operations and on the number of ticks. -/
theorem onlyWrActEndsALockout : Obligations.OnlyWrActEndsALockout :=
  ⟨fun _ _ => runOps_keeps_lockout, fun n _ => runOps_ticks_of_lockedOut n⟩

/-! ### The command layer and the sampler (spec/30_encoding.md R102 to R105, spec/60_exceptions.md R191) -/

/-- A letter other than `P`, `I` and `D` assembles to nothing. -/
theorem assembleGain_of_not_mem {l : Char} (v : Nat) (h : l ∉ ['P', 'I', 'D']) :
    assembleGain l v = none := by
  simp only [List.mem_cons, List.not_mem_nil, or_false, not_or] at h
  simp [assembleGain, h]

/-- The allowed range of `F32`, for values that are no NaN. -/
theorem TargetRange.allows_f32 {r : TargetRange} {v : Nat} (hlo : isNaN (dec32 r.vLo) = false)
    (hhi : isNaN (dec32 r.vHi) = false) (hv : isNaN (dec32 v) = false) :
    r.allows (profileArith .f32) v = true ↔
      flt (dec32 v) (dec32 r.vLo) = false ∧ flt (dec32 r.vHi) (dec32 v) = false := by
  simp [allows, numLe, hlo, hhi, hv]

/-- Settles O56, form by form. -/
theorem textCommandsAssemble : Obligations.TextCommandsAssemble := by
  rintro _ r v rfl
  refine ⟨rfl, fun hlo hhi hv => ?target, rfl, rfl, rfl, fun l hl => ?other, rfl⟩
  case target =>
    exact if_congr (TargetRange.allows_f32 hlo hhi hv) rfl rfl
  case other =>
    refine assembleGain_of_not_mem v fun h => hl ?_
    simp only [List.mem_cons, List.not_mem_nil, or_false] at h ⊢
    tauto

/-- What one entry of a sampler's list pushes: the sample of a successful read, numbered by its place. -/
def Sampler.entryPush (channel : Nat) (readBus : Nat → Device → Option Elem) (entry : Device × Nat) :
    Option Instr :=
  (readBus entry.2 entry.1).map (Instr.push channel)

theorem Sampler.onTick_eq (readBus : Nat → Device → Option Elem) (m : Sampler) :
    m.onTick readBus = m.devices.zipIdx.filterMap (entryPush m.channel readBus) := rfl

/-- The first device is read as number 0, the rest as a list of its own with the numbers moved by one. -/
theorem Sampler.onTick_cons (readBus : Nat → Device → Option Elem) {m : Sampler} {d : Device}
    {rest : List Device} (h : m.devices = d :: rest) :
    m.onTick readBus = (entryPush m.channel readBus (d, 0)).toList ++
      ({ m with devices := rest } : Sampler).onTick (fun k => readBus (k + 1)) := by
  have hshift : entryPush m.channel readBus ∘ (fun e : Device × Nat => (e.1, e.2 + 1)) =
      entryPush m.channel (fun k => readBus (k + 1)) := rfl
  rw [onTick_eq, onTick_eq, h, List.zipIdx_cons, List.zipIdx_succ, List.filterMap_cons,
    List.filterMap_map, hshift]
  cases entryPush m.channel readBus (d, 0) <;> rfl

/-- Settles O57: the first entry alone, and every push from an entry of the numbered list. -/
theorem samplerPushesOnlySuccessfulReads : Obligations.SamplerPushesOnlySuccessfulReads := by
  intro m readBus
  refine ⟨fun h => ?nil, fun d rest x h hx => ?read, fun d rest h hx => ?failed, ?length,
    fun i hi => ?member⟩
  case nil => rw [Sampler.onTick_eq, h]; rfl
  case read => rw [Sampler.onTick_cons readBus h, Sampler.entryPush, hx]; rfl
  case failed => rw [Sampler.onTick_cons readBus h, Sampler.entryPush, hx]; rfl
  case length =>
    have hle := List.length_filterMap_le (Sampler.entryPush m.channel readBus) m.devices.zipIdx
    rwa [List.length_zipIdx] at hle
  case member =>
    obtain ⟨⟨d, k⟩, hentry, hpush⟩ := List.mem_filterMap.mp hi
    obtain ⟨x, hx, rfl⟩ := Option.map_eq_some_iff.mp hpush
    exact ⟨k, d, x, List.mem_zipIdx_iff_getElem?.mp hentry, hx, rfl⟩

end Sys2Proof.Machine

/-! PROOFS. Configurations that are accepted (spec/00_scope.md R10) and what a cycle runs: nothing, the one
operation it is presented, or what every port of it presents (spec/30_encoding.md, spec/60_exceptions.md
section 2). -/

namespace Sys2Proof.Machine

/-! ### Accepted configurations (R10) -/

section Finite

variable {P : Profile} {v : Nat} (h : P = .f32 → isFinite (dec32 v) = true)

include h

/-- What is finite where the profile is `F32` is finite under every profile. -/
theorem profileArith_isFinite : (profileArith P).isFinite v = true := by
  cases P with
  | f32 => exact h rfl
  | other nw => rfl

theorem profileArith_isNaN : (profileArith P).isNaN v = false := by
  cases P with
  | f32 => exact isNaN_of_isFinite (h rfl)
  | other nw => rfl

end Finite

theorem profileArith_zero_isNaN (P : Profile) : (profileArith P).isNaN (profileArith P).zero = false := by
  cases P with
  | f32 => decide
  | other nw => rfl

theorem numLe_of_not_flt {N : NumProfile α} {a b : α} (ha : N.isNaN a = false) (hb : N.isNaN b = false)
    (h : N.flt b a = false) : numLe N a b = true := by
  simp [numLe, ha, hb, h]

/-- Settles O13: `a <= b` is that `b` is not less than `a` and that neither is NaN, as no parameter is. -/
theorem goodConfigurationIsAccepted : Obligations.GoodConfigurationIsAccepted := by
  intro s hne hnw hperiod hin hint hlow hhigh heps hparams hchans
  have hnan : ∀ v ∈ s.params.toList, s.arith.isNaN v = false := fun v hv =>
    profileArith_isNaN (hparams v hv).2
  simp only [PidParams.toList, List.forall_mem_cons] at hnan
  obtain ⟨-, hinMin, hinMax, hintMin, hintMax, hepsNaN, -⟩ := hnan
  have hzero : s.arith.isNaN s.arith.zero = false := profileArith_zero_isNaN s.num
  have hok : paramsOk s.arith s.params = true :=
    (paramsOk_iff _ _).mpr ⟨hperiod, numLe_of_not_flt hinMin hinMax hin,
      numLe_of_not_flt hintMin hintMax hint, numLe_of_not_flt hintMin hzero hlow,
      numLe_of_not_flt hzero hintMax hhigh, numLe_of_not_flt hzero hepsNaN heps,
      fun v hv => profileArith_isFinite (hparams v hv).2⟩
  exact s.configOk_iff.mpr ⟨hok, hne, fun c hc => (chanParamsOk_iff _).mpr (hchans c hc), hnw,
    fun v hv => (hparams v hv).1⟩

/-! ### A cycle that presents nothing -/

section Idle

variable {s : State} {p : PortInputs} (htick : p.tick = false) (hcmd : p.cmdValid = false)
  (hlen : p.chans.length ≤ s.chans.length)
  (hidle : ∀ (ch : Nat) (ci : ChanIn) (c : Channel), p.chans[ch]? = some ci →
    s.chans[ch]? = some c → ci.push.testBit c.params.w = false ∧ ci.popReq = false)

include hidle in
/-- Channels that are presented nothing stay as they are. -/
theorem chanCycles_of_idle (hlen : p.chans.length ≤ s.chans.length) :
    chanCycles 0 p.chans s = .next s := by
  obtain ⟨chans, hnext, -, hother, hsame⟩ := chanCycles_next (ch := 0) (s := s) (by rwa [Nat.zero_add])
  suffices hchans : chans = s.chans by rw [hnext, hchans]
  refine List.ext_getElem? fun ch => ?_
  cases hci : p.chans[ch]? with
  | none => exact hother ch (.inr (by simpa using List.getElem?_eq_none_iff.mp hci))
  | some ci =>
    have hlt : ch < s.chans.length := (List.getElem?_eq_some_iff.mp hci).1.trans_le hlen
    have hc : s.chans[ch]? = some s.chans[ch] := List.getElem?_eq_getElem hlt
    obtain ⟨hbit, hpop⟩ := hidle ch ci _ hci hc
    have hself := hsame ch ci _ hci (by rwa [Nat.zero_add])
    rw [Nat.zero_add] at hself
    rw [hself, hc]
    simp [chanAfter, hbit, hpop]

include htick hcmd hidle in
theorem PortInputs.not_presents_of_idle : p.presents s.widths = false := by
  rw [presents, htick, hcmd, Bool.false_or, Bool.false_or, List.any_eq_false]
  intro x hx
  obtain ⟨ch, hch⟩ := List.mem_iff_getElem?.mp hx
  obtain ⟨hci, hw⟩ := List.getElem?_zip_eq_some.mp hch
  obtain ⟨c, hc, hcw⟩ : ∃ c, s.chans[ch]? = some c ∧ c.params.w = x.2 := by simpa using hw
  obtain ⟨hbit, hpop⟩ := hidle ch x.1 c hci hc
  simp [← hcw, hbit, hpop]

include htick hcmd hlen hidle in
/-- Such a cycle is not refused before the first reset either (log 12). -/
theorem runCycle_of_idle (hrst : p.rst = false) : runCycle p s.consumeInputs = .next s.started := by
  have hquiet : p.presents s.consumeInputs.widths = false :=
    PortInputs.not_presents_of_idle htick hcmd hidle
  have hchans : chanCycles 0 p.chans s.started = .next s.started := by
    refine chanCycles_of_idle (fun ch ci d hci hd => ?_) (by simpa using hlen)
    obtain ⟨c, hc, rfl⟩ : ∃ c, s.chans[ch]? = some c ∧ c.quiet = d := by simpa using hd
    exact hidle ch ci c hci hc
  have hpid : pidCycle p s.started = .next s.started := pidCycle_quiet _ htick hcmd
  calc runCycle p s.consumeInputs
    _ = operationsCycle p s.consumeInputs := by
        simp [runCycle, Nat.not_lt.mpr hlen, hrst, hquiet]
    _ = andThen (pidCycle p s.started) (chanCycles 0 p.chans) := rfl
    _ = .next s.started := by rw [hpid, andThen_next, hchans]

end Idle

/-- Settles O8: no port presents anything, so the cycle only takes back the result signals. -/
theorem quietCycleChangesNothing : Obligations.QuietCycleChangesNothing := by
  intro s p hok hrst htick hcmd hlen hidle
  refine ⟨PortInputs.not_presents_of_idle htick hcmd hidle, ?_, fun hin => ?_, rfl, rfl, rfl,
    fun ch => ?_, fun ch => ?_⟩
  · rw [step_present hok, runCycle_of_idle htick hcmd hlen hidle hrst]
  · have hfetch : fetchInputs s = PortInputs.quiet := by simp [fetchInputs, hin]
    rw [step_of_config hok, hfetch]
    exact runCycle_of_idle rfl rfl (Nat.zero_le _) (fun _ _ _ h => by cases h) rfl
  · simp [Function.comp_def]
  · cases hc : s.chans[ch]? <;> simp [State.pushOk, State.popped, hc]

/-! ### A cycle that presents one word -/

section OneWord

variable {s : State} (hok : s.configOk = true) (hready : s.resetSeen = true)

include hok hready

/-- A cycle without reset on ports that exist runs its operations. -/
theorem step_present_of_ops {p : PortInputs} (hrst : p.rst = false)
    (hlen : p.chans.length ≤ s.chans.length) :
    step (s.present p) = andThen (pidCycle p s.started) (chanCycles 0 p.chans) :=
  (step_present hok p).trans (runCycle_of_ops (s := s.consumeInputs) hlen hrst hready)

/-- A cycle that presents nothing but to channel `ch` is that channel's half of it. -/
theorem step_present_channel {ch : Nat} (ci : ChanIn) (hlt : ch < s.chans.length) :
    step (s.present { PortInputs.quiet with chans := List.replicate ch ChanIn.quiet ++ [ci] }) =
      chanCycle ch ci s.started := by
  rw [step_present_of_ops hok hready rfl (by simpa using hlt), pidCycle_quiet _ rfl rfl, andThen_next]
  calc chanCycles 0 (List.replicate ch ChanIn.quiet ++ [ci]) s.started
    _ = chanCycles (0 + ch) [ci] s.started :=
        chanCycles_replicate_quiet _ _ _ _ (by simpa using hlt.le)
    _ = chanCycle ch ci s.started := by rw [Nat.zero_add]; exact andThen_next_right _

/-- The cycle of a word runs the well-formed operation it decodes to. -/
theorem step_present_ofWord {word : PortWord} {i : Instr} (hd : decode s.widths word = .op i)
    (hi : i.wellFormed s.widths = true) :
    step (s.present (PortInputs.ofWord word)) = exec i s.started := by
  cases word with
  | cmd c =>
    rw [step_present_of_ops hok hready rfl (Nat.zero_le _)]
    refine (andThen_next_right _).trans ?_
    have hport : cmdPort s.num.nw (PortInputs.ofWord (.cmd c)) = .op i := hd
    simp only [pidCycle, State.started_num, hport]
    rfl
  | tick bit =>
    cases bit with
    | false => cases hd
    | true =>
      obtain rfl := Decoded.op.inj hd
      rw [step_present_of_ops hok hready rfl (Nat.zero_le _)]
      exact (andThen_next_right _).trans (andThen_next_right _)
  | push ch word =>
    cases hc : s.chans[ch]? with
    | none => simp [decode, hc] at hd
    | some c =>
      have hpush : decodePush c.params.w ch word = .op i := by simpa [decode, hc] using hd
      refine (step_present_channel hok hready _ (List.getElem?_eq_some_iff.mp hc).1).trans ?_
      simp [chanCycle, hc, chanOps, hpush, decodePop, runChanOps]
  | popReq ch bit =>
    cases bit with
    | false => cases hd
    | true =>
      obtain rfl := Decoded.op.inj hd
      have hlt : ch < s.chans.length := by simpa [Instr.wellFormed] using hi
      refine (step_present_channel hok hready _ hlt).trans ?_
      simp [chanCycle, List.getElem?_eq_getElem hlt, chanOps, decodePop, runChanOps]

end OneWord

/-- Settles O6, port by port. -/
theorem stepRunsThePresentedOperation : Obligations.StepRunsThePresentedOperation :=
  fun _ _ _ hok hready => step_present_ofWord hok hready

/-! ### A row of the opcode table (log 7) -/

/-- A command word laid out for another `NW` is the word of the same operation, if its operand fits. -/
theorem decodeCmd_relaid {nw c : Nat} {widths : PortWidths} {i : Instr} (h : decodeCmd nw c = .op i)
    (hi : i.wellFormed widths = true) :
    decodeCmd widths.nw (cmdWord widths.nw (cmdOp nw c) (lowBits widths.nw (cmdData nw c))) =
      .op i := by
  have hlow : lowBits widths.nw (cmdData nw c) < 2 ^ widths.nw := Nat.mod_lt _ (Nat.two_pow_pos _)
  unfold decodeCmd at h ⊢
  rw [cmdOp_cmdWord _ hlow, cmdData_cmdWord _ hlow]
  generalize (cmdOp nw c).toNat = n at h ⊢
  match n with
  | 0 | 1 => exact h
  | 2 | 3 | 4 | 5 | 6 | 7 =>
    obtain rfl := Decoded.op.inj h
    have hfits : lowBits widths.nw (cmdData nw c) = cmdData nw c :=
      Nat.mod_eq_of_lt (of_decide_eq_true hi)
    rw [hfits]
    exact h
  | k + 8 => cases h

theorem Decoded.toInstr_eq_some {d : Decoded} {i : Instr} (h : d.toInstr = some i) : d = .op i := by
  cases d with
  | op j => rw [Option.some.inj h]
  | reserved | idle => cases h

/-- A row of the table is laid out as a word that decodes to the row's operation, if that fits the ports. -/
theorem exists_word_of_decodeTableWord {nbits w : Nat} {widths : PortWidths} {i : Instr}
    (h : decodeTableWord nbits w = some i) (hi : i.wellFormed widths = true) :
    ∃ word, PortInputs.ofTableWord widths nbits w = PortInputs.ofWord word ∧
      decode widths word = .op i := by
  unfold decodeTableWord at h
  unfold PortInputs.ofTableWord
  split at h
  case isTrue h8 => exact ⟨_, if_pos h8, Decoded.toInstr_eq_some h⟩
  case isFalse h8 =>
    rw [if_neg h8]
    split at h
    case isFalse h32 => exact ⟨_, if_neg h32, decodeCmd_relaid (Decoded.toInstr_eq_some h) hi⟩
    case isTrue h32 =>
      refine ⟨_, if_pos h32, ?_⟩
      obtain ⟨hbit, hpush⟩ | ⟨-, hidle⟩ := decodePush_cases 8 0 w
      · rw [hpush] at h
        obtain rfl := Option.some.inj h
        cases hw : widths.chans[0]? with
        | none => simp [Instr.wellFormed, hw] at hi
        | some w0 =>
          have hitem : w % 2 ^ 8 < 2 ^ w0 := by simpa [Instr.wellFormed, hw] using hi
          rw [if_pos hbit]
          simp only [decode, hw, Option.getD_some]
          exact decodePush_pushWord 0 hitem
      · rw [hidle] at h
        cases h

/-- Settles O7: the placed row is the cycle of a word. -/
theorem placedTableWordRunsNext : Obligations.PlacedTableWordRunsNext := by
  intro s nbits w i hok hready h hi
  obtain ⟨word, hword, hd⟩ := exists_word_of_decodeTableWord h hi
  rw [State.withFetchWord, hword]
  exact step_present_ofWord hok hready hd hi

/-! ### A cycle in which any ports present operations -/

/-- `PIDREG` in a cycle: the tick, then the command, each if it is presented. -/
theorem pidCycle_eq (p : PortInputs) (s : State) :
    pidCycle p s =
      andThen (if p.tick = true then exec .tick s else .next s)
        (fun v => if p.cmdValid = true then runDecoded (decodeCmd s.num.nw p.cmd) v else .next v) := by
  unfold pidCycle cmdPort
  cases p.tick <;> cases p.cmdValid <;> rfl

/-- A channel put back as it was. -/
theorem set_of_getElem?_eq_some {l : List Channel} {ch : Nat} {c : Channel} (h : l[ch]? = some c) :
    l.set ch c = l := by
  obtain ⟨hlt, rfl⟩ := List.getElem?_eq_some_iff.mp h
  exact List.set_getElem_self hlt

/-- Settles O58: the two halves of the cycle, and each channel as its ports alone would leave it. -/
theorem cycleServesEveryPort : Obligations.CycleServesEveryPort := by
  intro s p hok hready hrst hlen
  rw [step_present_of_ops hok hready hrst hlen, pidCycle_eq]
  refine ⟨fun htick hfault => by rw [if_pos htick, hfault]; rfl, fun u hu => ?_⟩
  obtain ⟨r, rfl⟩ := pidCycle_next ((pidCycle_eq p s.started).trans hu)
  obtain ⟨chans, hchans, -, hother, hsame⟩ :=
    chanCycles_next (ch := 0) (s := { s.started with regs := r }) (by simpa using hlen)
  have hstep := andThen_eq_next.mpr ⟨_, hu, hchans⟩
  refine ⟨_, hstep, rfl, rfl, rfl, rfl, rfl, rfl, fun ch hnone => ?_, fun ch c ci hc hci => ?_⟩
  · exact hother ch (.inr (by simpa using List.getElem?_eq_none_iff.mp hnone))
  · have hquiet : s.started.chans[ch]? = some c.quiet := by simp [hc]
    have hself := hsame ch ci c.quiet hci (by simpa using hquiet)
    rw [Nat.zero_add] at hself
    refine ⟨{ s.started with chans := s.started.chans.set ch (chanAfter (s.stale ch) ci c.quiet) },
      ?_, hself.trans (getElem?_set_self_of_some _ hquiet).symm⟩
    have hitem : ci.push % 2 ^ c.params.w < 2 ^ c.params.w := Nat.mod_lt _ (Nat.two_pow_pos _)
    have hlt : ch < s.chans.length := (List.getElem?_eq_some_iff.mp hc).1
    unfold chanAfter
    rw [Channel.quiet_params]
    cases hbit : ci.push.testBit c.params.w with
    | false =>
      cases hpop : ci.popReq with
      | false => rw [set_of_getElem?_eq_some hquiet]
      | true => exact exec_pop_of_some hquiet
    | true =>
      cases hpop : ci.popReq with
      | false => exact exec_push_of_some hquiet _
      | true =>
        exact (step_present_channel hok hready _ hlt).trans
          ((chanCycle_push_and_pop hquiet hitem).trans (execPushPop_of_some hquiet _))

end Sys2Proof.Machine
